-- ==== Sys2Proof/Word.lean ====
section
/-! DEFINITION. The one unit of storage and of both channels of LBRE: the byte (spec/20_memory.md R34). -/

namespace Sys2Proof

/-- A byte: 8 bits, bit 7 the most significant (00_scope.md R6). -/
abbrev Byte := BitVec 8

end Sys2Proof
end

