-- ==== Sys2Proof/Config.lean ====
section
/-! DEFINITION. The parameters and constants of LBRE (spec/00_scope.md R4). `Params` is what an instance fixes for its
whole life; the constants are the same for every instance. -/

namespace Sys2Proof

/-- `ON_OVERFLOW` (R4): what the loader does with input byte number `CAP + 1` and later. -/
inductive OnOverflow where
  | fault
  | truncate
  deriving DecidableEq, Repr

/-- The parameters an instance of LBRE takes (R4): fixed when the instance is built and never changed by a run
(45_host_operations.md R148, 70_reset_and_hazards.md R172). -/
structure Params where
  /-- `CAP`: how many input bytes the loader accepts; any natural. -/
  cap : Nat
  /-- `ON_OVERFLOW`. -/
  onOverflow : OnOverflow
  /-- `DIGIT_RUN_MAX`: the largest byte value that continues a digit-entry run. -/
  digitRunMax : Byte
  deriving DecidableEq, Repr

/-- `BUF_BYTES = CAP + 3`: the storage of the Program buffer, so that the one normalisation append always fits (R4). -/
def Params.bufBytes (p : Params) : Nat := p.cap + 3

/-- `AW`: the smallest `w` with `2^w > CAP + 3` (R4, D6). -/
def Params.addrWidth (p : Params) : Nat := Nat.log2 (p.cap + 3) + 1

/-- R4 gives `DIGIT_RUN_MAX` the value `0x1C` and lets a model take the other reading, `0x1D`; no other value is a
parameter of LBRE. -/
abbrev Params.wf (p : Params) : Prop := p.digitRunMax = 0x1C#8 ∨ p.digitRunMax = 0x1D#8

namespace Config

/-- `CAP`, which the spec leaves OPEN (R4, D4): no value of it can be used in a proof. -/
opaque cap : Nat

/-- The parameters of the LBRE the spec describes (R4): `CAP` open, `ON_OVERFLOW = FAULT` (D5),
`DIGIT_RUN_MAX = 0x1C` (D7). -/
def params : Params := { cap := cap, onOverflow := .fault, digitRunMax := 0x1C#8 }

/-- `ROW_BYTES`: payload bytes in a full row (R4). -/
def rowBytes : Nat := 13

/-- `TYPE_CODE`: the row type code, "program barcode" (R4). -/
def typeCode : BitVec 4 := 1#4

/-- `TERM`: the canonical terminator instruction (R4, 30_encoding.md R57). -/
def term : List Byte := [0xC0#8, 0x00#8, 0x2F#8]

end Config

end Sys2Proof
end

