-- ==== Sys2Proof/Syntax.lean ====
section
/-! DEFINITION. The input instructions of LBRE: one constructor per class of spec/30_encoding.md R48, in the order of
spec/opcode_table.json. An instruction is a span of bytes of the Program (R45); a constructor holds every byte of the
span, those that LBRE examines and those it only carries as payload, so that no bit of an instruction is lost. -/

namespace Sys2Proof

/-- The 19 classes (R48), named by the mnemonics of the table (`END` is `endMark`: `end` is a word of Lean). -/
inductive OpClass where
  | one0 | digits | alpha | one2 | one3 | one4 | one5 | one6 | one7 | one8
  | two9 | twoA | twoB | cshort | glabel | endMark | threeD | threeE | text
  deriving DecidableEq, Repr

/-- An input instruction with all its bytes (R45, R46). `x` is the low nibble of the opcode byte where the high
nibble alone selects the class; `op` is the whole opcode byte of the two classes of nibble 1. -/
inductive Instr where
  /-- `ONE0`, format F1 (R71). -/
  | one0 (x : BitVec 4)
  /-- `DIGITS`, format FD (R72): the opcode byte and the run bytes after it. -/
  | digits (op : Byte) (run : List Byte)
  /-- `ALPHA`, format FA (R73): opcode byte, the byte that holds `n`, the `n` text bytes. -/
  | alpha (op b1 : Byte) (body : List Byte)
  /-- `ONE2`, format F1 (R74). -/
  | one2 (x : BitVec 4)
  /-- `ONE3`, format F1 (R75). -/
  | one3 (x : BitVec 4)
  /-- `ONE4`, format F1 (R76). -/
  | one4 (x : BitVec 4)
  /-- `ONE5`, format F1 (R77). -/
  | one5 (x : BitVec 4)
  /-- `ONE6`, format F1 (R78). -/
  | one6 (x : BitVec 4)
  /-- `ONE7`, format F1 (R79). -/
  | one7 (x : BitVec 4)
  /-- `ONE8`, format F1 (R80). -/
  | one8 (x : BitVec 4)
  /-- `TWO9`, format F2 (R81). -/
  | two9 (x : BitVec 4) (b1 : Byte)
  /-- `TWOA`, format F2 (R82). -/
  | twoA (x : BitVec 4) (b1 : Byte)
  /-- `TWOB`, format F2 (R83). -/
  | twoB (x : BitVec 4) (b1 : Byte)
  /-- `CSHORT`, format F2 (R84): the opcode byte is `0xCE` or `0xCF`. -/
  | cshort (x : BitVec 1) (b1 : Byte)
  /-- `GLABEL`, format FL (R85): low nibble, `b1`, the byte that holds the selector and `n`, the `n` text bytes. -/
  | glabel (x : BitVec 4) (b1 b2 : Byte) (body : List Byte)
  /-- `END`, format FE (R86). -/
  | endMark (x : BitVec 4) (b1 b2 : Byte)
  /-- `THREED`, format F3 (R87). -/
  | threeD (x : BitVec 4) (b1 b2 : Byte)
  /-- `THREEE`, format F3 (R88). -/
  | threeE (x : BitVec 4) (b1 b2 : Byte)
  /-- `TEXT`, format FT (R89): `n` is the low nibble of the opcode byte; then the `n` text bytes. -/
  | text (n : BitVec 4) (body : List Byte)
  deriving DecidableEq, Repr

/-- The class of an instruction. -/
def Instr.opClass : Instr → OpClass
  | .one0 _ => .one0
  | .digits _ _ => .digits
  | .alpha _ _ _ => .alpha
  | .one2 _ => .one2
  | .one3 _ => .one3
  | .one4 _ => .one4
  | .one5 _ => .one5
  | .one6 _ => .one6
  | .one7 _ => .one7
  | .one8 _ => .one8
  | .two9 _ _ => .two9
  | .twoA _ _ => .twoA
  | .twoB _ _ => .twoB
  | .cshort _ _ => .cshort
  | .glabel _ _ _ _ => .glabel
  | .endMark _ _ _ => .endMark
  | .threeD _ _ _ => .threeD
  | .threeE _ _ _ => .threeE
  | .text _ _ => .text

end Sys2Proof
end

