-- ==== Sys2Proof/WellFormed.lean ====
section
/-! DEFINITION. Which terms of `Instr` are instructions: the range of the opcode byte of each class that does not fill its
nibble, the selector bit of `GLABEL` and `END`, and a body as long as its length field says (spec/30_encoding.md R46, R47). -/

namespace Sys2Proof

/-- `Instr.wf runMax i`: the bytes of `i` have the shape of its format (R46), where `runMax` is `DIGIT_RUN_MAX`. -/
def Instr.wf (runMax : Byte) : Instr → Bool
  | .one0 _ => true
  | .digits op run =>
      decide (0x10 ≤ op.toNat ∧ op.toNat ≤ 0x1C) && run.all (fun r => decide (0x0F < r.toNat ∧ r.toNat ≤ runMax.toNat))
  | .alpha op b1 body => decide (0x1D ≤ op.toNat ∧ op.toNat ≤ 0x1F) && decide (body.length = b1.toNat % 16)
  | .one2 _ => true
  | .one3 _ => true
  | .one4 _ => true
  | .one5 _ => true
  | .one6 _ => true
  | .one7 _ => true
  | .one8 _ => true
  | .two9 _ _ => true
  | .twoA _ _ => true
  | .twoB _ _ => true
  | .cshort _ _ => true
  | .glabel x _ b2 body => decide (x.toNat ≤ 0xD) && decide (0x80 ≤ b2.toNat) && decide (body.length = b2.toNat % 16)
  | .endMark x _ b2 => decide (x.toNat ≤ 0xD) && decide (b2.toNat < 0x80)
  | .threeD _ _ _ => true
  | .threeE _ _ _ => true
  | .text n body => decide (body.length = n.toNat)

end Sys2Proof
end

