-- ==== Sys2Proof/Decode.lean ====
section
/-! DEFINITION. The variable-length instruction decoder (spec/41_length_decoder.md) and the encodings of the input
instructions (spec/30_encoding.md): field extraction, the opcode map, `InstLen`, the decoder, the encoder, and the match and
mask rows of the opcode table. The decoder reads through a reader `read`, so that one definition serves the machine (whose
reader is `MemRead`) and a plain list of bytes. -/

namespace Sys2Proof

/-! ### Fields (R6, R47) -/

/-- `b[7:4]`. -/
def hiNibble (b : Byte) : BitVec 4 := b.extractLsb' 4 4

/-- `b[3:0]`. -/
def loNibble (b : Byte) : BitVec 4 := b.extractLsb' 0 4

/-- `b[7] = 1`. -/
def highBit (b : Byte) : Bool := b.getLsbD 7

/-- The length of a `TEXT` from its low nibble: `1 + n` (R89). -/
def textLength (n : BitVec 4) : Nat := 1 + n.toNat

/-- The length of an `ALPHA` from `b1`: `2 + b1[3:0]` (R73). -/
def alphaLength (b1 : Byte) : Nat := 2 + (loNibble b1).toNat

/-- The length of a `GLABEL` from `b2`: `3 + b2[3:0]` (R85). -/
def glabelLength (b2 : Byte) : Nat := 3 + (loNibble b2).toNat

/-- `InRun(r)` (R70, R72): `0x0F < r <= DIGIT_RUN_MAX`. -/
def inRun (runMax r : Byte) : Bool := decide (0x0F < r.toNat ∧ r.toNat ≤ runMax.toNat)

/-! ### The opcode map (R48) -/

/-- What the opcode byte alone selects: a class, or the pair `GLABEL`, `END` that `b2[7]` splits. -/
inductive OpTag where
  | one0 | digits | alpha | one2 | one3 | one4 | one5 | one6 | one7 | one8
  | two9 | twoA | twoB | labelOrEnd | cshort | threeD | threeE | text
  deriving DecidableEq, Repr

/-- The ranges of `b0` of R48, in rising order; every byte selects a class (R49). -/
def opTag (b0 : Byte) : OpTag :=
  if b0.toNat ≤ 0x0F then .one0
  else if b0.toNat ≤ 0x1C then .digits
  else if b0.toNat ≤ 0x1F then .alpha
  else if b0.toNat ≤ 0x2F then .one2
  else if b0.toNat ≤ 0x3F then .one3
  else if b0.toNat ≤ 0x4F then .one4
  else if b0.toNat ≤ 0x5F then .one5
  else if b0.toNat ≤ 0x6F then .one6
  else if b0.toNat ≤ 0x7F then .one7
  else if b0.toNat ≤ 0x8F then .one8
  else if b0.toNat ≤ 0x9F then .two9
  else if b0.toNat ≤ 0xAF then .twoA
  else if b0.toNat ≤ 0xBF then .twoB
  else if b0.toNat ≤ 0xCD then .labelOrEnd
  else if b0.toNat ≤ 0xCF then .cshort
  else if b0.toNat ≤ 0xDF then .threeD
  else if b0.toNat ≤ 0xEF then .threeE
  else .text

/-- The class of an instruction from its opcode byte and, for `0xC0 .. 0xCD`, from `b2` (R48). -/
def classOf (b0 b2 : Byte) : OpClass :=
  match opTag b0 with
  | .one0 => .one0
  | .digits => .digits
  | .alpha => .alpha
  | .one2 => .one2
  | .one3 => .one3
  | .one4 => .one4
  | .one5 => .one5
  | .one6 => .one6
  | .one7 => .one7
  | .one8 => .one8
  | .two9 => .two9
  | .twoA => .twoA
  | .twoB => .twoB
  | .labelOrEnd => if highBit b2 then .glabel else .endMark
  | .cshort => .cshort
  | .threeD => .threeD
  | .threeE => .threeE
  | .text => .text

/-! ### Reading -/

/-- Why bytes give no instruction. `malformedTail` is the condition the spec gives the fault `MalformedTail`
(R90, 42_row_packer.md R103): a byte of the instruction, or one its length depends on, lies at or beyond the end.
`noValue a` is the model's own: byte `a` of the Program was never written (10_state.md R11); no run meets it. -/
inductive Reject where
  | malformedTail
  | noValue (a : Nat)
  deriving DecidableEq, Repr

/-- The reader of a plain list of bytes: a read at or beyond its end is a malformed tail (20_memory.md R32). -/
def listRead (bs : List Byte) (a : Nat) : Except Reject Byte :=
  match bs[a]? with
  | some b => .ok b
  | none => .error .malformedTail

/-- `n` bytes from `a` on, in offset order. -/
def readRange (read : Nat → Except Reject Byte) : (n a : Nat) → Except Reject (List Byte)
  | 0, _ => .ok []
  | n + 1, a =>
    match read a with
    | .error e => .error e
    | .ok b =>
      match readRange read n (a + 1) with
      | .error e => .error e
      | .ok bs => .ok (b :: bs)

/-! ### The length (R70) -/

/-- The scan of `DIGITS` (R72): how many bytes from `a` on continue the run, up to the first that does not. `fuel` is how
many bytes there are before the end; a scan that meets the end is a malformed tail (R90). -/
def scanRun (read : Nat → Except Reject Byte) (runMax : Byte) : (fuel a : Nat) → Except Reject Nat
  | 0, _ => .error .malformedTail
  | fuel + 1, a =>
    match read a with
    | .error e => .error e
    | .ok r =>
      if inRun runMax r then
        match scanRun read runMax fuel (a + 1) with
        | .error e => .error e
        | .ok k => .ok (k + 1)
      else .ok 0

/-- `InstLen(o)` (R70): the length of the instruction whose opcode byte is at `o`, where `limit` is the Program's length.
The arms are R71 to R89. -/
def instLen (read : Nat → Except Reject Byte) (runMax : Byte) (limit o : Nat) : Except Reject Nat :=
  match read o with
  | .error e => .error e
  | .ok b0 =>
    match opTag b0 with
    | .one0 => .ok 1
    | .digits =>
      match scanRun read runMax (limit - o) (o + 1) with
      | .error e => .error e
      | .ok k => .ok (1 + k)
    | .alpha =>
      match read (o + 1) with
      | .error e => .error e
      | .ok b1 => .ok (alphaLength b1)
    | .one2 => .ok 1
    | .one3 => .ok 1
    | .one4 => .ok 1
    | .one5 => .ok 1
    | .one6 => .ok 1
    | .one7 => .ok 1
    | .one8 => .ok 1
    | .two9 => .ok 2
    | .twoA => .ok 2
    | .twoB => .ok 2
    | .labelOrEnd =>
      match read (o + 2) with
      | .error e => .error e
      | .ok b2 => if highBit b2 then .ok (glabelLength b2) else .ok 3
    | .cshort => .ok 2
    | .threeD => .ok 3
    | .threeE => .ok 3
    | .text => .ok (textLength (loNibble b0))

/-! ### The decoder -/

/-- The instruction whose bytes are exactly `bs` (R46). `bs` is as long as `InstLen` says, so no default is used. -/
def assemble (bs : List Byte) : Instr :=
  let b0 := bs.getD 0 0
  let b1 := bs.getD 1 0
  let b2 := bs.getD 2 0
  match classOf b0 b2 with
  | .one0 => .one0 (loNibble b0)
  | .digits => .digits b0 (bs.drop 1)
  | .alpha => .alpha b0 b1 (bs.drop 2)
  | .one2 => .one2 (loNibble b0)
  | .one3 => .one3 (loNibble b0)
  | .one4 => .one4 (loNibble b0)
  | .one5 => .one5 (loNibble b0)
  | .one6 => .one6 (loNibble b0)
  | .one7 => .one7 (loNibble b0)
  | .one8 => .one8 (loNibble b0)
  | .two9 => .two9 (loNibble b0) b1
  | .twoA => .twoA (loNibble b0) b1
  | .twoB => .twoB (loNibble b0) b1
  | .cshort => .cshort (b0.extractLsb' 0 1) b1
  | .glabel => .glabel (loNibble b0) b1 b2 (bs.drop 3)
  | .endMark => .endMark (loNibble b0) b1 b2
  | .threeD => .threeD (loNibble b0) b1 b2
  | .threeE => .threeE (loNibble b0) b1 b2
  | .text => .text (loNibble b0) (bs.drop 1)

/-- The instruction at offset `o` of a Program of length `limit`: resolve the length (R50, R70), refuse one that runs past
the end (42_row_packer.md R103), split the bytes. -/
def decodeAt (read : Nat → Except Reject Byte) (runMax : Byte) (limit o : Nat) : Except Reject Instr :=
  match instLen read runMax limit o with
  | .error e => .error e
  | .ok n =>
    if limit < o + n then .error .malformedTail
    else
      match readRange read n o with
      | .error e => .error e
      | .ok bs => .ok (assemble bs)

/-- How many bytes an instruction has, by the rule of its class (R71 to R89). -/
def Instr.length : Instr → Nat
  | .one0 _ => 1
  | .digits _ run => 1 + run.length
  | .alpha _ b1 _ => alphaLength b1
  | .one2 _ => 1
  | .one3 _ => 1
  | .one4 _ => 1
  | .one5 _ => 1
  | .one6 _ => 1
  | .one7 _ => 1
  | .one8 _ => 1
  | .two9 _ _ => 2
  | .twoA _ _ => 2
  | .twoB _ _ => 2
  | .cshort _ _ => 2
  | .glabel _ _ b2 _ => glabelLength b2
  | .endMark _ _ _ => 3
  | .threeD _ _ _ => 3
  | .threeE _ _ _ => 3
  | .text n _ => textLength n

/-- The first instruction of a list of bytes, and the bytes after it. -/
def decode (runMax : Byte) (bs : List Byte) : Except Reject (Instr × List Byte) :=
  match decodeAt (listRead bs) runMax bs.length 0 with
  | .error e => .error e
  | .ok i => .ok (i, bs.drop i.length)

/-! ### The encoder (R46) -/

/-- The bytes of an instruction, opcode byte first. -/
def encode : Instr → List Byte
  | .one0 x => [0x0#4 ++ x]
  | .digits op run => op :: run
  | .alpha op b1 body => op :: b1 :: body
  | .one2 x => [0x2#4 ++ x]
  | .one3 x => [0x3#4 ++ x]
  | .one4 x => [0x4#4 ++ x]
  | .one5 x => [0x5#4 ++ x]
  | .one6 x => [0x6#4 ++ x]
  | .one7 x => [0x7#4 ++ x]
  | .one8 x => [0x8#4 ++ x]
  | .two9 x b1 => [0x9#4 ++ x, b1]
  | .twoA x b1 => [0xA#4 ++ x, b1]
  | .twoB x b1 => [0xB#4 ++ x, b1]
  | .cshort x b1 => [0x67#7 ++ x, b1]
  | .glabel x b1 b2 body => (0xC#4 ++ x) :: b1 :: b2 :: body
  | .endMark x b1 b2 => [0xC#4 ++ x, b1, b2]
  | .threeD x b1 b2 => [0xD#4 ++ x, b1, b2]
  | .threeE x b1 b2 => [0xE#4 ++ x, b1, b2]
  | .text n body => (0xF#4 ++ n) :: body

/-- Whether the bytes after an instruction let the decoder end it: a digit run needs a byte outside the run range after
it (R72), every other instruction ends by itself. -/
def endedBy (runMax : Byte) (i : Instr) (rest : List Byte) : Prop :=
  match i with
  | .digits _ _ => ∃ r t, rest = r :: t ∧ inRun runMax r = false
  | _ => True

/-! ### The opcode table (R59) -/

/-- One row of spec/opcode_table.json: the window `W = (b0 << 16) | (b1 << 8) | b2` is selected when
`W & mask = pattern`. -/
structure TableRow where
  opClass : OpClass
  pattern : BitVec 24
  mask : BitVec 24
  deriving DecidableEq, Repr

/-- The rows of the table, in its order. -/
def tableRows : List TableRow :=
  [⟨.one0, 0x000000#24, 0xF00000#24⟩,
   ⟨.digits, 0x100000#24, 0xF80000#24⟩, ⟨.digits, 0x180000#24, 0xFC0000#24⟩, ⟨.digits, 0x1C0000#24, 0xFF0000#24⟩,
   ⟨.alpha, 0x1D0000#24, 0xFF0000#24⟩, ⟨.alpha, 0x1E0000#24, 0xFE0000#24⟩,
   ⟨.one2, 0x200000#24, 0xF00000#24⟩, ⟨.one3, 0x300000#24, 0xF00000#24⟩, ⟨.one4, 0x400000#24, 0xF00000#24⟩,
   ⟨.one5, 0x500000#24, 0xF00000#24⟩, ⟨.one6, 0x600000#24, 0xF00000#24⟩, ⟨.one7, 0x700000#24, 0xF00000#24⟩,
   ⟨.one8, 0x800000#24, 0xF00000#24⟩] ++
  [⟨.two9, 0x900000#24, 0xF00000#24⟩, ⟨.twoA, 0xA00000#24, 0xF00000#24⟩, ⟨.twoB, 0xB00000#24, 0xF00000#24⟩,
   ⟨.cshort, 0xCE0000#24, 0xFE0000#24⟩,
   ⟨.glabel, 0xC00080#24, 0xF80080#24⟩, ⟨.glabel, 0xC80080#24, 0xFC0080#24⟩, ⟨.glabel, 0xCC0080#24, 0xFE0080#24⟩,
   ⟨.endMark, 0xC00000#24, 0xF80080#24⟩, ⟨.endMark, 0xC80000#24, 0xFC0080#24⟩, ⟨.endMark, 0xCC0000#24, 0xFE0080#24⟩,
   ⟨.threeD, 0xD00000#24, 0xF00000#24⟩, ⟨.threeE, 0xE00000#24, 0xF00000#24⟩, ⟨.text, 0xF00000#24, 0xF00000#24⟩]

/-- Whether a row selects the instruction that begins with the bytes `b0 b1 b2`. -/
def rowSelects (b0 b1 b2 : Byte) (r : TableRow) : Bool := ((b0 ++ b1 ++ b2 : BitVec 24) &&& r.mask) == r.pattern

/-- The bytes of an instruction whose window is `w`, `nbits` wide (R59): the table numbers one window whose most
significant byte is `b0`, the first in offset order; every byte after the window is 0. DEDUCED, log 33. -/
def tableBytes (nbits w : Nat) : List Byte :=
  (List.range (nbits / 8)).map (fun k => BitVec.ofNat 8 (w >>> (nbits - 8 * (k + 1)))) ++ List.replicate 18 0#8

/-- The instruction the decoder reads from a window of the opcode table. -/
def decodeTableWord (nbits w : Nat) : Option Instr :=
  match decode Config.params.digitRunMax (tableBytes nbits w) with
  | .ok (i, _) => some i
  | .error _ => none

end Sys2Proof
end

