-- ==== Sys2Proof/Machine/State.lean ====
section
/-! DEFINITION. The state of LBRE: the twelve elements of spec/10_state.md R10, the instance's parameters
(00_scope.md R4), and the two fields by which the model holds the host's side of the ports (45_host_operations.md R147);
then the reasons a step can stop, and the state after reset. -/

namespace Sys2Proof.Machine

/-- The sequencer's phase (R20). -/
inductive Phase where
  | load | pack | done | fault
  deriving DecidableEq, Repr

/-- The register `fault` (R21, 60_exceptions.md R153); the value 3 never occurs. -/
inductive FaultCode where
  | none | capacityExceeded | malformedTail
  deriving DecidableEq, Repr

/-- The Program buffer: the bytes written so far, at rising addresses. A byte that is not listed has no value
(R11: unspecified contents that no rule reads). -/
abbrev Memory := List Host.Cell

/-- The canonical form: addresses strictly rising. (An unlisted byte has no value, so no entry can equal it.) -/
abbrev Memory.wf (m : Memory) : Prop := m.Pairwise (fun x y => x.1 < y.1)

/-- What LBRE's input pins show at one moment (45_host_operations.md R147). -/
structure PortIn where
  rst : Bool
  inValid : Bool
  inEnd : Bool
  inData : Byte
  outReady : Bool
  deriving DecidableEq, Repr

/-- A host that does nothing at this moment. -/
def PortIn.idle : PortIn := { rst := false, inValid := false, inEnd := false, inData := 0#8, outReady := false }

/-- The operations of R140. -/
inductive Operation where
  | reset | push | finish | step
  deriving DecidableEq, Repr

/-- The complete state. Registers of width `AW` and the 4-bit counters `space_left`, `n_start` are naturals, as R10 and
D6 allow, since no rule lets them overflow. -/
structure State where
  /-- The instance's parameters: no operation changes them (R148). -/
  params : Params
  /-- `Prog` (R11). -/
  prog : Memory
  /-- `L` (R12). -/
  len : Nat
  /-- `pc` (R13). -/
  pc : Nat
  /-- `space_left` (R14). -/
  spaceLeft : Nat
  /-- `inst_left` (R15). -/
  instLeft : Nat
  /-- `n_start` (R16). -/
  nStart : Nat
  /-- `start_pc` (R17). -/
  startPc : Nat
  /-- `sequence` (R18). -/
  sequence : BitVec 4
  /-- `checksum` (R19). -/
  checksum : Byte
  /-- `phase` (R20). -/
  phase : Phase
  /-- `fault` (R21). -/
  fault : FaultCode
  /-- `out` (R22). -/
  out : List Byte
  /-- MODEL'S OWN: how many bytes of `out` the host has taken through `out_valid`/`out_ready` (R147; log 24). -/
  taken : Nat
  /-- MODEL'S OWN: what the host's pins show at the coming moments, the next first; after the last, the host does
  nothing more (R147, R148; log 23). -/
  pins : List PortIn
  deriving DecidableEq, Repr

/-- Why the MODEL stops. Neither is a fault of LBRE (those are next states, `Machine.raise`), and no state a run reaches
meets one. -/
inductive Fault where
  /-- A read of byte `a < L` of the Program that nothing has written (raised by a `STEP` or by `FINISH`, through `rejected` and `progByte`). Safe: the spec
  gives such a byte no value (R11), and between operations every byte below `L` is written. -/
  | readUnwritten (a : Nat)
  /-- A write at `a >= CAP + 3`, outside the storage (raised by `PUSH` or `FINISH`, through `memWrite`). Safe: the address does not exist
  (R11, R33), and `L <= CAP` in phase `LOAD` keeps every write inside. -/
  | writeOutside (a : Nat)
  deriving DecidableEq, Repr

/-- Why there is no step. -/
inductive Refusal where
  /-- An instruction not modelled yet (raised by exec's arms). Safe. -/
  | notModelled (mnemonic : String)
  /-- The operation is not enabled in this phase: R146 gives it no transition, no state change and no fault
  (raised by the operations themselves when applied in another phase, and by `step` when no operation is enabled and the
  host's pins show nothing more). Safe. -/
  | notEnabled (op : Operation) (phase : Phase)
  deriving DecidableEq, Repr

/-- The state after reset (70_reset_and_hazards.md R170) of the LBRE the spec describes: no byte of the Program has a
value, no byte is put out, and the host has not yet done anything. -/
def State.reset : State :=
  { params := Config.params, prog := [], len := 0, pc := 0, spaceLeft := 13, instLeft := 0, nStart := 0, startPc := 0,
    sequence := 0#4, checksum := 0#8, phase := .load, fault := .none, out := [], taken := 0, pins := [] }

end Sys2Proof.Machine
end

