-- ==== Sys2Proof/Machine/Ops.lean ====
section
/-! DEFINITION. The named operations over memory and registers: the checked read and the write of the Program
(spec/20_memory.md R32, R33), taking a fault (60_exceptions.md R157) and the one way out of it, `RESET`
(45_host_operations.md R141), and fetching the instruction at `pc`. -/

namespace Sys2Proof.Machine

/-! ### The Program buffer -/

/-- The byte listed at `a`, if any. -/
def memGet : Memory → Nat → Option Byte
  | [], _ => none
  | (k, b) :: m, a => if k = a then some b else memGet m a

/-- The memory with `v` at `a`, in canonical form. -/
def memSet : Memory → Nat → Byte → Memory
  | [], a, v => [(a, v)]
  | (k, b) :: m, a, v =>
    if a < k then (a, v) :: (k, b) :: m
    else if a = k then (a, v) :: m
    else (k, b) :: memSet m a v

/-- `MemRead(a, 1)` (R32): a read at or above `L` raises `MalformedTail`. -/
def memRead (s : State) (a : Nat) : Except Reject Byte :=
  if s.len ≤ a then .error .malformedTail
  else
    match memGet s.prog a with
    | some b => .ok b
    | none => .error (.noValue a)

/-- `MemWrite(a, 1, v)` (R33), inside the `CAP + 3` bytes of storage (R11). -/
def memWrite (a : Nat) (v : Byte) (s : State) : Except Fault State :=
  if a < s.params.bufBytes then .ok { s with prog := memSet s.prog a v } else .error (.writeOutside a)

/-- Three bytes written at rising addresses, the writes of the normaliser (40_normalizer.md R62, R63). -/
def memWrite3 (a : Nat) (v0 v1 v2 : Byte) (s : State) : Except Fault State :=
  match memWrite a v0 s with
  | .error r => .error r
  | .ok s1 =>
    match memWrite (a + 1) v1 s1 with
    | .error r => .error r
    | .ok s2 => memWrite (a + 2) v2 s2

/-! ### Taking a fault, and leaving it -/

/-- `raise F` (R157), applied to the state BEFORE the faulting operation: none of the operation's writes happens,
`phase <- FAULT`, `fault <- code(F)`, and nothing else changes. -/
def raise (f : FaultCode) (s : State) : State := { s with phase := .fault, fault := f }

/-- How an operation that met a `Reject` ends, where `s` is the state before it: `MalformedTail` is taken; a byte with no
value stops the model. -/
def rejected (e : Reject) (s : State) : Host.Outcome State Fault Refusal :=
  match e with
  | .malformedTail => .next (raise .malformedTail s)
  | .noValue a => .fault (.readUnwritten a)

/-- `RESET` (R141): every register takes its reset value, `out` starts again empty, `Prog` is not cleared. It is the only
exit from `FAULT` (60_exceptions.md R159). -/
def reset (s : State) : State :=
  { s with len := 0, pc := 0, spaceLeft := 13, instLeft := 0, nStart := 0, startPc := 0, sequence := 0#4,
           checksum := 0#8, phase := .load, fault := .none, out := [], taken := 0 }

/-! ### Fetching -/

/-- `InstLen(o)` on the Program (41_length_decoder.md R70). -/
def progInstLen (s : State) (o : Nat) : Except Reject Nat := instLen (memRead s) s.params.digitRunMax s.len o

/-- The instruction at `pc`: its length, the overrun check `pc + len > L` (42_row_packer.md R103), its bytes. -/
def fetch (s : State) : Except Reject Instr := decodeAt (memRead s) s.params.digitRunMax s.len s.pc

end Sys2Proof.Machine
end

