-- ==== Sys2Proof/Machine/Operands.lean ====
section
/-! DEFINITION. The fields of the output row record and the record itself (spec/30_encoding.md R51 to R56). -/

namespace Sys2Proof.Machine

/-- `length_byte = p + 2` (R52). -/
def lengthByte (p : Nat) : Byte := BitVec.ofNat 8 (p + 2)

/-- `type_byte = 0x10 | (sequence & 0xF)` (R53): the type code in bits 7:4, the sequence number in bits 3:0. -/
def typeByte (sequence : BitVec 4) : Byte := Config.typeCode ++ sequence

/-- `overflow_byte = ((n_start & 0xF) << 4) | (n_end & 0xF)` (R54). -/
def overflowByte (ns ne : Nat) : Byte := BitVec.ofNat 4 ns ++ BitVec.ofNat 4 ne

/-- One row: what its record says. -/
structure Row where
  checksum : Byte
  sequence : BitVec 4
  nStart : Nat
  nEnd : Nat
  payload : List Byte
  deriving DecidableEq, Repr

/-- The row record of R51: `[length_byte][checksum_byte][type_byte][overflow_byte][payload]`. -/
def rowBytes (r : Row) : List Byte :=
  lengthByte r.payload.length :: r.checksum :: typeByte r.sequence :: overflowByte r.nStart r.nEnd :: r.payload

end Sys2Proof.Machine
end

