-- ==== Sys2Proof/Machine/Flags.lean ====
section
/-! DEFINITION. The status of LBRE and what its output pins show (spec/10_state.md R20, R21, R24, 45_host_operations.md
R147), and the one computation with a carry, `CsAdd` (43_checksum.md R121): LBRE keeps no arithmetic flag (R21). -/

namespace Sys2Proof.Machine

/-- The register `phase` as the port shows it (R20). -/
def phaseCode : Phase → BitVec 2
  | .load => 0#2
  | .pack => 1#2
  | .done => 2#2
  | .fault => 3#2

/-- The register `fault` as the port shows it (R21, R153). -/
def faultCode : FaultCode → BitVec 2
  | .none => 0#2
  | .capacityExceeded => 1#2
  | .malformedTail => 2#2

/-- The port `in_ready`: high only in phase `LOAD` (R147). -/
def inReady (s : State) : Bool := decide (s.phase = .load)

/-- The port `out_valid`: there is a byte of `out` the host has not taken (R147). -/
def outValid (s : State) : Bool := decide (s.taken < s.out.length)

/-- The port `out_data`: the next byte of `out`, where `out_valid` is high (R147). -/
def outData (s : State) : Option Byte := s.out[s.taken]?

/-- The port `phase` (R147). -/
def phasePort (s : State) : BitVec 2 := phaseCode s.phase

/-- The port `fault` (R147). -/
def faultPort (s : State) : BitVec 2 := faultCode s.fault

/-- The port `pc`, `AW` bits wide (R147). -/
def pcPort (s : State) : BitVec s.params.addrWidth := BitVec.ofNat s.params.addrWidth s.pc

/-- `CsAdd(s, b)` (R121): the carry out of bit 7 is added into bit 0. -/
def csAdd (c b : Byte) : Byte :=
  let t := c.toNat + b.toNat
  let u := if t > 255 then t + 1 else t
  BitVec.ofNat 8 u

/-- `CsAdd` over a sequence of bytes, in order (R122). -/
def csFold (c : Byte) : List Byte → Byte
  | [] => c
  | b :: bs => csFold (csAdd c b) bs

end Sys2Proof.Machine
end

