-- ==== Sys2Proof/Machine/Emitter.lean ====
section
/-! DEFINITION. The row emitter (spec/44_row_emitter.md). -/

namespace Sys2Proof.Machine

/-- The row of `EmitRow(start, p, ns, ne)` over a payload already read (R130 to R132): the checksum folds the type byte,
the overflow byte and the payload, in that order, from the register's value. -/
def makeRow (s : State) (payload : List Byte) (ns ne : Nat) : Row :=
  { checksum := csFold s.checksum (typeByte s.sequence :: overflowByte ns ne :: payload)
    sequence := s.sequence, nStart := ns, nEnd := ne, payload := payload }

/-- Putting a row out (R133): its checksum becomes the register's value and its record is appended whole. -/
def putRow (r : Row) (s : State) : State := { s with checksum := r.checksum, out := s.out ++ rowBytes r }

/-- `EmitRow(start, p, ns, ne)` (R130). The payload is read with `MemRead` (R134). -/
def emitRow (start p ns ne : Nat) (s : State) : Except Reject State :=
  match readRange (memRead s) p start with
  | .error e => .error e
  | .ok payload => .ok (putRow (makeRow s payload ns ne) s)

end Sys2Proof.Machine
end

