-- ==== Sys2Proof/Machine/Packer.lean ====
section
/-! DEFINITION. The row packer (spec/42_row_packer.md): the parts of `STEP` (R100), each one shared operation. -/

namespace Sys2Proof.Machine

/-- Step 1 of an iteration, opening a row (R102): `n_start` is what is owed of an instruction begun in an EARLIER row, so a
row that an instruction itself opens has `n_start = 0`, however many bytes of it follow. DESIGN CHOICE, log 37: the spec
contradicts itself here. R106 and R111 say that a row wholly inside one instruction has `n_start = 13`, but a row opened by
an instruction of more than 13 bytes has `n_start = 0` and `n_end = 13` by R102, R105 and R110 c, e; the model follows
these. -/
def openRow (s : State) : State :=
  if s.spaceLeft = 13 then { s with nStart := min 13 s.instLeft, startPc := s.pc } else s

/-- Step 3, placing bytes (R104): `bytes_fit = min(space_left, inst_left)`. -/
def bytesFit (s : State) : Nat := min s.spaceLeft s.instLeft

/-- Step 3 (R104). -/
def place (s : State) : State :=
  { s with pc := s.pc + bytesFit s, spaceLeft := s.spaceLeft - bytesFit s, instLeft := s.instLeft - bytesFit s }

/-- After a full row is out (R105): the sequence counter wraps modulo 16 and the next row is empty. -/
def nextRow (s : State) : State := { s with sequence := s.sequence + 1#4, spaceLeft := 13 }

/-- `n_end` of a full row whose last placement put `fit` bytes (R105, R106): 0 when the instruction is finished. It
is 13 also on a row that the instruction opened, where `n_start` is 0 (`openRow`, log 37). -/
def nEndOf (fit : Nat) (s : State) : Nat := if 0 < s.instLeft then fit else 0

/-- Step 4 (R105): a row with no space left is emitted and the next one begun; other rows stay open. -/
def closeRow (fit : Nat) (s : State) : Except Reject State :=
  if s.spaceLeft = 0 then
    match emitRow s.startPc 13 s.nStart (nEndOf fit s) s with
    | .error e => .error e
    | .ok t => .ok (nextRow t)
  else .ok s

/-- Steps 3 and 4 from `s`, in the `STEP` that began in `before`: a rejected read undoes the whole `STEP` (R157). -/
def placeAndClose (before s : State) : Host.Outcome State Fault Refusal :=
  match closeRow (bytesFit s) (place s) with
  | .error e => rejected e before
  | .ok t => .next t

/-- A `STEP` that resolves no instruction, `inst_left > 0`: more bytes of the instruction being packed (R100). -/
def continueInstr (s : State) : Host.Outcome State Fault Refusal := placeAndClose s (openRow s)

/-- The `STEP` of an instruction of `n` bytes (R100 with `InstLen(pc) = n`): step 1, step 2 with its overrun check
(R103), steps 3 and 4. Enabled in phase `PACK` only. Where an instruction is still owed bytes (`inst_left > 0`) step 2
resolves nothing and the `STEP` goes on with that one, as R100 says. -/
def packInstr (n : Nat) (s : State) : Host.Outcome State Fault Refusal :=
  if s.phase = .pack then
    if s.instLeft = 0 then
      if s.len < s.pc + n then .next (raise .malformedTail s)
      else placeAndClose s { openRow s with instLeft := n }
    else continueInstr s
  else .refused (.notEnabled .step s.phase)

/-- The last `STEP`, `pc = L` (R107): a row that is open is emitted with `n_end = 0`, and the run is done. -/
def flush (s : State) : Host.Outcome State Fault Refusal :=
  if s.spaceLeft < 13 then
    match emitRow s.startPc (13 - s.spaceLeft) s.nStart 0 s with
    | .error e => rejected e s
    | .ok t => .next { t with phase := .done }
  else .next { s with phase := .done }

end Sys2Proof.Machine
end

