-- ==== Sys2Proof/Machine/OneByte.lean ====
section
/-! DEFINITION. The classes of one byte (spec/41_length_decoder.md R71, R74 to R80). What an instruction does in LBRE is
the `STEP` that resolves it and places its first bytes; it is never executed. -/

namespace Sys2Proof.Machine

/-- `ONE0` (R71): length 1. -/
def execOne0 (_x : BitVec 4) (s : State) : Host.Outcome State Fault Refusal := packInstr 1 s

/-- `ONE2` (R74): length 1. -/
def execOne2 (_x : BitVec 4) (s : State) : Host.Outcome State Fault Refusal := packInstr 1 s

/-- `ONE3` (R75): length 1. -/
def execOne3 (_x : BitVec 4) (s : State) : Host.Outcome State Fault Refusal := packInstr 1 s

/-- `ONE4` (R76): length 1. -/
def execOne4 (_x : BitVec 4) (s : State) : Host.Outcome State Fault Refusal := packInstr 1 s

/-- `ONE5` (R77): length 1. -/
def execOne5 (_x : BitVec 4) (s : State) : Host.Outcome State Fault Refusal := packInstr 1 s

/-- `ONE6` (R78): length 1. -/
def execOne6 (_x : BitVec 4) (s : State) : Host.Outcome State Fault Refusal := packInstr 1 s

/-- `ONE7` (R79): length 1. -/
def execOne7 (_x : BitVec 4) (s : State) : Host.Outcome State Fault Refusal := packInstr 1 s

/-- `ONE8` (R80): length 1. -/
def execOne8 (_x : BitVec 4) (s : State) : Host.Outcome State Fault Refusal := packInstr 1 s

end Sys2Proof.Machine
end

