-- ==== Sys2Proof/Machine/ThreeByte.lean ====
section
/-! DEFINITION. The classes of three bytes (spec/41_length_decoder.md R86 to R88). -/

namespace Sys2Proof.Machine

/-- `END` (R86): length 3; decoding it does not stop the packer. -/
def execEndMark (_x : BitVec 4) (_b1 _b2 : Byte) (s : State) : Host.Outcome State Fault Refusal := packInstr 3 s

/-- `THREED` (R87): length 3. -/
def execThreeD (_x : BitVec 4) (_b1 _b2 : Byte) (s : State) : Host.Outcome State Fault Refusal := packInstr 3 s

/-- `THREEE` (R88): length 3. -/
def execThreeE (_x : BitVec 4) (_b1 _b2 : Byte) (s : State) : Host.Outcome State Fault Refusal := packInstr 3 s

end Sys2Proof.Machine
end

