-- ==== Sys2Proof/Machine/TwoByte.lean ====
section
/-! DEFINITION. The classes of two bytes (spec/41_length_decoder.md R81 to R84); the second byte is carried, not read. -/

namespace Sys2Proof.Machine

/-- `TWO9` (R81): length 2. -/
def execTwo9 (_x : BitVec 4) (_b1 : Byte) (s : State) : Host.Outcome State Fault Refusal := packInstr 2 s

/-- `TWOA` (R82): length 2. -/
def execTwoA (_x : BitVec 4) (_b1 : Byte) (s : State) : Host.Outcome State Fault Refusal := packInstr 2 s

/-- `TWOB` (R83): length 2. -/
def execTwoB (_x : BitVec 4) (_b1 : Byte) (s : State) : Host.Outcome State Fault Refusal := packInstr 2 s

/-- `CSHORT` (R84): length 2. -/
def execCshort (_x : BitVec 1) (_b1 : Byte) (s : State) : Host.Outcome State Fault Refusal := packInstr 2 s

end Sys2Proof.Machine
end

