-- ==== Sys2Proof/Machine/Variable.lean ====
section
/-! DEFINITION. The classes whose length depends on a field or a scan (spec/41_length_decoder.md R72, R73, R85, R89). -/

namespace Sys2Proof.Machine

/-- `DIGITS` (R72): the opcode byte and its run. -/
def execDigits (_op : Byte) (run : List Byte) (s : State) : Host.Outcome State Fault Refusal := packInstr (1 + run.length) s

/-- `ALPHA` (R73): `2 + b1[3:0]`. -/
def execAlpha (_op b1 : Byte) (_body : List Byte) (s : State) : Host.Outcome State Fault Refusal :=
  packInstr (alphaLength b1) s

/-- `GLABEL` (R85): `3 + b2[3:0]`. -/
def execGlabel (_x : BitVec 4) (_b1 b2 : Byte) (_body : List Byte) (s : State) : Host.Outcome State Fault Refusal :=
  packInstr (glabelLength b2) s

/-- `TEXT` (R89): `1 + b0[3:0]`. -/
def execText (n : BitVec 4) (_body : List Byte) (s : State) : Host.Outcome State Fault Refusal := packInstr (textLength n) s

end Sys2Proof.Machine
end

