-- ==== Sys2Proof/Machine/Dispatch.lean ====
section
/-! DEFINITION. What LBRE does with the instruction at `pc`: one arm per constructor of `Instr`. -/

namespace Sys2Proof.Machine

def exec (i : Instr) (s : State) : Host.Outcome State Fault Refusal :=
  match i with
  | .one0 x => Sys2Proof.Machine.execOne0 x s
  | .digits op run => Sys2Proof.Machine.execDigits op run s
  | .alpha op b1 body => Sys2Proof.Machine.execAlpha op b1 body s
  | .one2 x => Sys2Proof.Machine.execOne2 x s
  | .one3 x => Sys2Proof.Machine.execOne3 x s
  | .one4 x => Sys2Proof.Machine.execOne4 x s
  | .one5 x => Sys2Proof.Machine.execOne5 x s
  | .one6 x => Sys2Proof.Machine.execOne6 x s
  | .one7 x => Sys2Proof.Machine.execOne7 x s
  | .one8 x => Sys2Proof.Machine.execOne8 x s
  | .two9 x b1 => Sys2Proof.Machine.execTwo9 x b1 s
  | .twoA x b1 => Sys2Proof.Machine.execTwoA x b1 s
  | .twoB x b1 => Sys2Proof.Machine.execTwoB x b1 s
  | .cshort x b1 => Sys2Proof.Machine.execCshort x b1 s
  | .glabel x b1 b2 body => Sys2Proof.Machine.execGlabel x b1 b2 body s
  | .endMark x b1 b2 => Sys2Proof.Machine.execEndMark x b1 b2 s
  | .threeD x b1 b2 => Sys2Proof.Machine.execThreeD x b1 b2 s
  | .threeE x b1 b2 => Sys2Proof.Machine.execThreeE x b1 b2 s
  | .text n body => Sys2Proof.Machine.execText n body s

end Sys2Proof.Machine
end

