-- ==== Sys2Proof/Machine/Normaliser.lean ====
section
/-! DEFINITION. The program normaliser (spec/40_normalizer.md). -/

namespace Sys2Proof.Machine

/-- The decision rule (R61): the byte at `L-3` has high nibble `0xC` and the byte at `L-1` has bit 7 clear. -/
def tailTest (first last : Byte) : Bool := (hiNibble first == 0xC#4) && !highBit last

/-- `Prog[a]`, the raw byte with no check against `L` (00_scope.md R7); a byte nothing has written has no value (R11). -/
def progByte (s : State) (a : Nat) : Except Fault Byte :=
  match memGet s.prog a with
  | some b => .ok b
  | none => .error (.readUnwritten a)

/-- Whether the last three bytes are taken for a terminator (R61, R64): false when `L < 3`; the byte at `L-2` is not
examined. -/
def endsInTerminator (s : State) : Except Fault Bool :=
  if s.len < 3 then .ok false
  else
    match progByte s (s.len - 3) with
    | .error r => .error r
    | .ok first =>
      match progByte s (s.len - 1) with
      | .error r => .error r
      | .ok last => .ok (tailTest first last)

/-- `Normalise()` in its overwrite branch (R62). -/
def overwriteTail (s : State) : Except Fault State := memWrite3 (s.len - 3) 0xC0#8 0x00#8 0x2F#8 s

/-- `Normalise()` in its append branch (R63). -/
def appendTail (s : State) : Except Fault State :=
  match memWrite3 s.len 0xC0#8 0x00#8 0x2F#8 s with
  | .error r => .error r
  | .ok t => .ok { t with len := t.len + 3 }

/-- `Normalise()` (R60). It raises no fault of LBRE: its reads are guarded by `L >= 3`. -/
def normalise (s : State) : Except Fault State :=
  match endsInTerminator s with
  | .error r => .error r
  | .ok true => overwriteTail s
  | .ok false => appendTail s

end Sys2Proof.Machine
end

