-- ==== Sys2Proof/Machine/HostOps.lean ====
section
/-! DEFINITION. The operations the host asks for (spec/45_host_operations.md): `PUSH` and `FINISH` (`RESET` is
`Machine.reset`), and what the input pins ask for at one moment (R147). -/

namespace Sys2Proof.Machine

/-- `PUSH(b)` (R142): the byte is stored at `L`; the push that finds `L = CAP` raises `CapacityExceeded` (60 R151), or
with `ON_OVERFLOW = TRUNCATE` drops the byte and changes nothing (R163). Enabled in phase `LOAD` only. -/
def push (b : Byte) (s : State) : Host.Outcome State Fault Refusal :=
  if s.phase = .load then
    if s.len < s.params.cap then
      match memWrite s.len b s with
      | .error r => .fault r
      | .ok t => .next { t with len := t.len + 1 }
    else
      match s.params.onOverflow with
      | .fault => .next (raise .capacityExceeded s)
      | .truncate => .next s
  else .refused (.notEnabled .push s.phase)

/-- `FINISH` (R143): `Normalise(); phase <- PACK`. Enabled in phase `LOAD` only. -/
def finish (s : State) : Host.Outcome State Fault Refusal :=
  if s.phase = .load then
    match normalise s with
    | .error r => .fault r
    | .ok t => .next { t with phase := .pack }
  else .refused (.notEnabled .finish s.phase)

/-- What the pins show now: the head of the schedule, or a host that does nothing. -/
def pinsNow (s : State) : PortIn :=
  match s.pins with
  | [] => PortIn.idle
  | p :: _ => p

/-- The moment passes for the host: the schedule moves on, and a byte of `out` is taken when `out_valid` and `out_ready`
are both high (R147). No element of LBRE changes. -/
def passMoment (s : State) : State :=
  { s with taken := if outValid s && (pinsNow s).outReady then s.taken + 1 else s.taken, pins := s.pins.tail }

/-- The operation of the token a transfer on the input channel carries (R147): `FINISH` where `in_end` is 1,
`PUSH(in_data)` where it is 0. -/
def acceptToken (p : PortIn) (s : State) : Host.Outcome State Fault Refusal :=
  if p.inEnd then finish s else push p.inData s

end Sys2Proof.Machine
end

