-- ==== Sys2Proof/Machine/Sequencer.lean ====
section
/-! DEFINITION. The sequencer, LBRE's one agent (spec/00_scope.md R8): which operation happens next
(45_host_operations.md R140, R144, R146, R147), and how a program is placed for the next fetch. -/

namespace Sys2Proof.Machine

/-- `STEP` (R144, 42_row_packer.md R100): while `pc < L` an iteration, which resolves and runs the instruction at `pc` or
goes on with one already begun; then the final flush. -/
def packStep (s : State) : Host.Outcome State Fault Refusal :=
  if s.pc < s.len then
    if s.instLeft = 0 then
      match fetch s with
      | .error e => rejected e s
      | .ok i => exec i s
    else continueInstr s
  else flush s

/-- No operation is enabled (R146): the moment passes for the host, or, when its pins show nothing more, there is no
step. -/
def noOperation (s : State) : Host.Outcome State Fault Refusal :=
  match s.pins with
  | [] => .refused (.notEnabled .step s.phase)
  | _ :: _ => .next (passMoment s)

/-- One moment of LBRE. `rst` wins over everything (60_exceptions.md R156). In `LOAD` a token on the input channel is
accepted; in `PACK` LBRE performs `STEP` by itself, and a token is not accepted; in `DONE` and `FAULT` nothing but `RESET`
is enabled. -/
def sequencer (s : State) : Host.Outcome State Fault Refusal :=
  if (pinsNow s).rst then .next (reset (passMoment s))
  else
    match s.phase with
    | .load => if (pinsNow s).inValid then acceptToken (pinsNow s) (passMoment s) else noOperation s
    | .pack => packStep (passMoment s)
    | .done => noOperation s
    | .fault => noOperation s

/-- `bs` written at `a` and on. -/
def memSetRange : Memory → Nat → List Byte → Memory
  | m, _, [] => m
  | m, a, b :: bs => memSetRange (memSet m a b) (a + 1) bs

/-- The state of an instance that was loaded with the bytes of window `w` (as the opcode table numbers it) and zeros after
it, 18 bytes, and the canonical terminator after them, and is about to resolve the instruction at `pc` with the host
silent. The instance's `CAP` is the number of bytes loaded. Log 32. -/
def placeWord (s : State) (nbits w : Nat) : State :=
  let bytes := (tableBytes nbits w).take 18
  { s with
    params := { s.params with cap := s.pc + 18 }
    prog := memSetRange s.prog s.pc (bytes ++ Config.term)
    len := s.pc + 21, instLeft := 0, phase := .pack, fault := .none, pins := [] }

end Sys2Proof.Machine
end

