-- ==== Sys2Proof/Machine/Step.lean ====
section
/-! DEFINITION. One step of LBRE, and placing an instruction where the next step fetches. -/

namespace Sys2Proof.Machine

/-- One moment of LBRE (`Machine.sequencer`). -/
def step (s : State) : Host.Outcome State Fault Refusal := sequencer s

/-- `s` with the instruction of window `w` where `step` fetches next (`Machine.placeWord`). -/
def State.withFetchWord (s : State) (nbits w : Nat) : State := placeWord s nbits w

end Sys2Proof.Machine
end

