-- ==== Sys2Proof/Safety.lean ====
section
/-! DEFINITION. What claims about LBRE are stated in: what its observer sees (spec/00_scope.md R9), the invariants that hold
between any two operations (10_state.md R26), which states differ in nothing a rule reads (R11), and the output stream of a
whole Program written without the packer's registers (42_row_packer.md R110). -/

namespace Sys2Proof.Machine

/-! ### The Program of a state -/

/-- The Program of `s` is `bs`: `bs[a]` stands at `Prog[a]` for every `a < L`, and `L` is the length of `bs` (R11, R12). -/
def Holds (s : State) (bs : List Byte) : Prop := bs.length = s.len ∧ ∀ a, a < s.len → memGet s.prog a = bs[a]?

/-- Every register but `L` is at its reset value and nothing is out (R26 a, R170). -/
def Fresh (s : State) : Prop :=
  s.pc = 0 ∧ s.spaceLeft = 13 ∧ s.instLeft = 0 ∧ s.nStart = 0 ∧ s.startPc = 0 ∧ s.sequence = 0#4 ∧ s.checksum = 0#8 ∧
    s.out = []

/-! ### The rows of an output stream -/

/-- The `k`-th row has sequence number `k` modulo 16 (R110 b). -/
def Numbered : Nat → List Row → Prop
  | _, [] => True
  | k, r :: rs => r.sequence = BitVec.ofNat 4 k ∧ Numbered (k + 1) rs

/-- Every row's checksum byte is the accumulator after its type byte, overflow byte and payload, starting from the
checksum byte of the row before it (30_encoding.md R55, 43_checksum.md R123). -/
def Threaded : Byte → List Row → Prop
  | _, [] => True
  | c, r :: rs =>
    r.checksum = csFold c (typeByte r.sequence :: overflowByte r.nStart r.nEnd :: r.payload) ∧ Threaded r.checksum rs

/-- The accumulator after the rows (R124). -/
def lastChecksum : Byte → List Row → Byte
  | c, [] => c
  | _, r :: rs => lastChecksum r.checksum rs

/-- The payloads of the rows, concatenated (R110 a). -/
def payloads (rows : List Row) : List Byte := rows.flatMap Row.payload

/-- `rows` are the rows put out so far: `out` is their records with nothing between them (R22), numbered and threaded, and
the accumulator is the last checksum byte (R124). -/
def RowsOut (s : State) (rows : List Row) : Prop :=
  s.out = rows.flatMap rowBytes ∧ Numbered 0 rows ∧ Threaded 0#8 rows ∧ s.checksum = lastChecksum 0#8 rows ∧
    ∀ r ∈ rows, r.nStart ≤ 13 ∧ r.nEnd ≤ 13

/-! ### The invariants (R26) -/

/-- The registers while packing the Program `bs` (R26 c, g, h): only full rows are out, they carry `bs` from its start,
and the open row begins where they end. -/
def Packing (bs : List Byte) (s : State) : Prop :=
  ∃ rows, RowsOut s rows ∧ (∀ r ∈ rows, r.payload.length = 13) ∧ payloads rows = bs.take (13 * rows.length) ∧
    s.sequence = BitVec.ofNat 4 rows.length ∧ 1 ≤ s.spaceLeft ∧ s.spaceLeft ≤ 13 ∧ s.nStart ≤ 13 ∧ s.pc + s.instLeft ≤ s.len ∧ s.startPc ≤ s.len ∧
    (s.spaceLeft = 13 → s.pc = 13 * rows.length) ∧
    (s.spaceLeft < 13 → s.startPc = 13 * rows.length ∧ s.pc = s.startPc + (13 - s.spaceLeft))

/-- The end of a run (R26 d, R110): the rows carry the whole Program, all but the last are full, none is empty. -/
def Complete (bs : List Byte) (s : State) : Prop :=
  ∃ rows, RowsOut s rows ∧ payloads rows = bs ∧ (∀ r ∈ rows, 1 ≤ r.payload.length ∧ r.payload.length ≤ 13) ∧
    (∀ r ∈ rows.dropLast, r.payload.length = 13) ∧ s.pc = s.len ∧ s.instLeft = 0 ∧ s.nStart ≤ 13 ∧
    s.spaceLeft ≤ 13 ∧ s.startPc ≤ s.len ∧ s.sequence = BitVec.ofNat 4 (s.len / 13)

/-- After `FINISH` (R26 b): the Program ends in the canonical terminator and fits the storage. -/
def Normalised (bs : List Byte) (s : State) : Prop := (∃ pre, bs = pre ++ Config.term) ∧ s.len ≤ s.params.cap + 3

/-- R26 by phase, for the Program `bs`. -/
def PhaseInv (bs : List Byte) (s : State) : Prop :=
  match s.phase with
  | .load => s.fault = .none ∧ s.len ≤ s.params.cap ∧ Fresh s
  | .pack => s.fault = .none ∧ Normalised bs s ∧ Packing bs s
  | .done => s.fault = .none ∧ Normalised bs s ∧ Complete bs s
  | .fault =>
    (s.fault = .capacityExceeded ∧ s.len = s.params.cap ∧ Fresh s) ∨
    (s.fault = .malformedTail ∧ Normalised bs s ∧ Packing bs s ∧ s.pc < s.len ∧ s.instLeft = 0 ∧
      fetch s = .error .malformedTail)

/-- What holds between any two operations (R26): the Program buffer is in canonical form and inside its storage, every
byte below `L` has a value, the host has taken no more than was put out, and the registers stand as their phase says. -/
def Inv (s : State) : Prop :=
  s.prog.wf ∧ (∀ c ∈ s.prog, c.1 < s.params.bufBytes) ∧ s.taken ≤ s.out.length ∧ ∃ bs, Holds s bs ∧ PhaseInv bs s

/-- Two states that differ only in Program bytes at or above `L`, which no rule reads (R11, R32). -/
def SameBelowL (s t : State) : Prop :=
  (∀ a, a < s.len → memGet s.prog a = memGet t.prog a) ∧ t = { s with prog := t.prog }

/-! ### The normaliser and the packer on whole byte sequences -/

/-- The Program `Normalise()` makes of the bytes `bs` (40_normalizer.md R60 to R64). -/
def normalised (bs : List Byte) : List Byte :=
  if 3 ≤ bs.length ∧ tailTest (bs.getD (bs.length - 3) 0) (bs.getD (bs.length - 1) 0) then
    bs.take (bs.length - 3) ++ Config.term
  else bs ++ Config.term

/-- The lengths of the instructions of a Program, from its first byte on; `none` when one runs past the end. -/
def measure (runMax : Byte) : (fuel : Nat) → List Byte → Option (List Nat)
  | 0, _ => none
  | _ + 1, [] => some []
  | fuel + 1, b :: bs =>
    match decode runMax (b :: bs) with
    | .error _ => none
    | .ok (i, rest) => (measure runMax fuel rest).map (fun ns => i.length :: ns)

/-- For every byte of a Program whose instructions have these lengths: how many bytes of its own instruction stand before
it, and how many after it. -/
def byteTags : List Nat → List (Nat × Nat)
  | [] => []
  | n :: ns => (List.range n).map (fun j => (j, n - 1 - j)) ++ byteTags ns

/-- A list cut into pieces of 13 (the last may be shorter). -/
def cut13 {α : Type} : (fuel : Nat) → List α → List (List α)
  | 0, _ => []
  | _ + 1, [] => []
  | fuel + 1, x :: xs => (x :: xs).take 13 :: cut13 fuel ((x :: xs).drop 13)

/-- `n_start` of a row from the tag of its first byte: what is still owed of an instruction begun before, capped at 13. -/
def startCount : Option (Nat × Nat) → Nat
  | none => 0
  | some (before, after) => if before = 0 then 0 else min 13 (after + 1)

/-- `n_end` of a row of `p` bytes from the tag of its last byte: how many bytes of an unfinished instruction it holds. -/
def endCount (p : Nat) : Option (Nat × Nat) → Nat
  | none => 0
  | some (before, after) => if after = 0 then 0 else min (before + 1) p

/-- The `k`-th row, from the checksum byte of the row before it and its bytes with their tags. -/
def referenceRow (k : Nat) (c : Byte) (piece : List (Byte × (Nat × Nat))) : Row :=
  let sequence := BitVec.ofNat 4 k
  let ns := startCount (piece.head?.map Prod.snd)
  let ne := endCount piece.length (piece.getLast?.map Prod.snd)
  let payload := piece.map Prod.fst
  { checksum := csFold c (typeByte sequence :: overflowByte ns ne :: payload)
    sequence := sequence, nStart := ns, nEnd := ne, payload := payload }

/-- The rows of the pieces, numbered from `k`, the checksum threaded from `c`. -/
def referenceRows : (k : Nat) → (c : Byte) → List (List (Byte × (Nat × Nat))) → List Row
  | _, _, [] => []
  | k, c, piece :: pieces =>
    let r := referenceRow k c piece
    r :: referenceRows (k + 1) r.checksum pieces

/-- The output stream of a whole Program: cut the bytes into rows of 13, count at each row's ends the bytes of an
instruction that crosses it, thread the checksum (R110). `none` when an instruction runs past the end (R103). -/
def referenceOut (runMax : Byte) (bs : List Byte) : Option (List Byte) :=
  (measure runMax (bs.length + 1) bs).map
    (fun ns => (referenceRows 0 0#8 (cut13 bs.length (bs.zip (byteTags ns)))).flatMap rowBytes)

/-! ### A host that follows R148 -/

/-- The pins of a `PUSH` token. -/
def pushPins (b : Byte) : PortIn := { rst := false, inValid := true, inEnd := false, inData := b, outReady := false }

/-- The pins of a `FINISH` token. -/
def finishPins : PortIn := { rst := false, inValid := true, inEnd := true, inData := 0#8, outReady := false }

/-- The pins of a reset. -/
def resetPins : PortIn := { rst := true, inValid := false, inEnd := false, inData := 0#8, outReady := false }

/-- A host that pushes the bytes of `input` in order and gives `FINISH` (R148, R149). -/
def hostPins (input : List Byte) : List PortIn := input.map pushPins ++ [finishPins]

end Sys2Proof.Machine
end

