-- ==== Sys2Proof/Certificates/Slice0/Obligations.lean ====
section
/-! DEFINITION. What is claimed of LBRE: each statement's docstring names the rules of spec/ it comes from. -/

open Sys2Proof Sys2Proof.Machine

/-! ### Encodings -/

/-- Decoding the bytes of a well-formed instruction, whatever follows it (a digit run must be followed by a byte that ends
it), gives that instruction with every bit of every operand, and the bytes that follow (30_encoding.md R46, R50). -/
def Obligations.DecodeEncodeRoundTrip : Prop :=
  ∀ (runMax : Byte) (i : Instr) (rest : List Byte), i.wf runMax = true → endedBy runMax i rest →
    decode runMax (encode i ++ rest) = .ok (i, rest)

/-- What the decoder gives is well-formed, and its encoding is the bytes that were read (R46). -/
def Obligations.DecodedInstructionReencodes : Prop :=
  ∀ (runMax : Byte) (bs rest : List Byte) (i : Instr), decode runMax bs = .ok (i, rest) →
    i.wf runMax = true ∧ encode i ++ rest = bs

/-- The rows of the opcode table are pairwise disjoint, cover every window, and select the class of the opcode map (R48,
R59). -/
def Obligations.OpcodeTableSelectsOneRow : Prop :=
  ∀ b0 b1 b2 : Byte, ∃ r ∈ tableRows, rowSelects b0 b1 b2 r = true ∧ r.opClass = classOf b0 b2 ∧
    ∀ r' ∈ tableRows, rowSelects b0 b1 b2 r' = true → r' = r

/-- The instruction the decoder gives has the class the opcode map gives its first and third byte (R48). -/
def Obligations.DecodedClassIsOpcodeMapClass : Prop :=
  ∀ (runMax : Byte) (bs rest : List Byte) (i : Instr), decode runMax bs = .ok (i, rest) →
    i.opClass = classOf (bs.getD 0 0) (bs.getD 2 0)

/-- The words of the spec's examples decode to the instructions they stand for (41_length_decoder.md R71 to R89). -/
def Obligations.SpecExampleBytesDecode : Prop :=
  decode 0x1C#8 [0x15#8, 0x1A#8, 0x13#8, 0x1B#8, 0x1C#8, 0x12#8, 0x00#8] =
      .ok (.digits 0x15#8 [0x1A#8, 0x13#8, 0x1B#8, 0x1C#8, 0x12#8], [0x00#8]) ∧
    decode 0x1C#8 [0x1E#8, 0xF3#8, 0x41#8, 0x42#8, 0x43#8] = .ok (.alpha 0x1E#8 0xF3#8 [0x41#8, 0x42#8, 0x43#8], []) ∧
    decode 0x1C#8 [0x91#8, 0x75#8] = .ok (.two9 0x1#4 0x75#8, []) ∧
    decode 0x1C#8 [0xCF#8, 0x05#8] = .ok (.cshort 0x1#1 0x05#8, []) ∧
    decode 0x1C#8 [0xC0#8, 0x00#8, 0x2F#8] = .ok (.endMark 0x0#4 0x00#8 0x2F#8, []) ∧
    decode 0x1C#8 [0xC0#8, 0x00#8, 0xF4#8, 0x00#8, 0x41#8, 0x42#8, 0x43#8] =
      .ok (.glabel 0x0#4 0x00#8 0xF4#8 [0x00#8, 0x41#8, 0x42#8, 0x43#8], []) ∧
    decode 0x1C#8 [0xF5#8, 0x41#8] = .error .malformedTail

/-! ### The length decoder -/

/-- The eight one-byte classes have length 1, whatever their low nibble and whatever follows (R71, R74 to R80). -/
def Obligations.InstLenOneByteClasses : Prop :=
  ∀ (s : State) (o : Nat) (b : Byte), memRead s o = .ok b →
    (b.toNat < 0x10 ∨ (0x20 ≤ b.toNat ∧ b.toNat ≤ 0x8F)) → progInstLen s o = .ok 1

/-- The classes of two and three bytes that the opcode byte alone selects, and `TEXT`, need no other byte (R81 to R84,
R87 to R89). -/
def Obligations.InstLenByOpcodeByte : Prop :=
  ∀ (s : State) (o : Nat) (b : Byte), memRead s o = .ok b →
    (((0x90 ≤ b.toNat ∧ b.toNat ≤ 0xBF) ∨ b = 0xCE#8 ∨ b = 0xCF#8) → progInstLen s o = .ok 2) ∧
    ((0xD0 ≤ b.toNat ∧ b.toNat ≤ 0xEF) → progInstLen s o = .ok 3) ∧
    (0xF0 ≤ b.toNat → progInstLen s o = .ok (1 + b.toNat % 16))

/-- `ALPHA`, `GLABEL` and `END` read one byte ahead, which must lie below `L` (R73, R85, R86, R90). -/
def Obligations.InstLenLookahead : Prop :=
  ∀ (s : State) (o : Nat) (b : Byte), memRead s o = .ok b →
    ((0x1D ≤ b.toNat ∧ b.toNat ≤ 0x1F) →
      (∀ b1, memRead s (o + 1) = .ok b1 → progInstLen s o = .ok (2 + b1.toNat % 16)) ∧
      (s.len ≤ o + 1 → progInstLen s o = .error .malformedTail)) ∧
    ((0xC0 ≤ b.toNat ∧ b.toNat ≤ 0xCD) →
      (∀ b2, memRead s (o + 2) = .ok b2 →
        progInstLen s o = .ok (if 0x80 ≤ b2.toNat then 3 + b2.toNat % 16 else 3)) ∧
      (s.len ≤ o + 2 → progInstLen s o = .error .malformedTail))

/-- `DIGITS` counts the opcode byte and the run bytes, not the byte that ends the run (R72, D8). -/
def Obligations.InstLenDigitsCountsRun : Prop :=
  ∀ (s : State) (o k : Nat) (b r : Byte), memRead s o = .ok b → 0x10 ≤ b.toNat → b.toNat ≤ 0x1C →
    (∀ j, j < k → ∃ c, memRead s (o + 1 + j) = .ok c ∧ 0x0F < c.toNat ∧ c.toNat ≤ s.params.digitRunMax.toNat) →
    memRead s (o + 1 + k) = .ok r → (r.toNat ≤ 0x0F ∨ s.params.digitRunMax.toNat < r.toNat) →
      progInstLen s o = .ok (1 + k)

/-- A digit run that meets the end of the Program is a malformed tail (R72, R90). -/
def Obligations.InstLenDigitsRunToEnd : Prop :=
  ∀ (s : State) (o : Nat) (b : Byte), memRead s o = .ok b → 0x10 ≤ b.toNat → b.toNat ≤ 0x1C →
    (∀ a, o < a → a < s.len →
      ∃ c, memRead s a = .ok c ∧ 0x0F < c.toNat ∧ c.toNat ≤ s.params.digitRunMax.toNat) →
      progInstLen s o = .error .malformedTail

/-- A resolved length is at least 1, and at most 18 for every class but `DIGITS` (R91). -/
def Obligations.InstLenBounds : Prop :=
  ∀ (s : State) (o n : Nat), progInstLen s o = .ok n →
    1 ≤ n ∧ (n ≤ 18 ∨ ∃ b, memRead s o = .ok b ∧ 0x10 ≤ b.toNat ∧ b.toNat ≤ 0x1C)

/-- On a Program that ends in the canonical terminator no lookahead read is out of bounds, under either value of
`DIGIT_RUN_MAX`, and a digit run ends before the terminator (R90, R91). -/
def Obligations.LookaheadInBoundsWhenNormalised : Prop :=
  ∀ (s : State) (pre : List Byte) (o : Nat), s.params.wf → Holds s (pre ++ Config.term) → o < s.len →
    ∃ n, progInstLen s o = .ok n ∧
      (∀ b, memRead s o = .ok b → 0x10 ≤ b.toNat → b.toNat ≤ 0x1C → o + n ≤ s.len - 3)

/-- The length `InstLen` resolves is the length of the instruction the decoder gives, which is how many bytes its encoding
has (R45, R50). -/
def Obligations.InstLenMatchesDecodedInstruction : Prop :=
  ∀ (s : State) (i : Instr), fetch s = .ok i →
    progInstLen s s.pc = .ok i.length ∧ (encode i).length = i.length ∧ s.pc + i.length ≤ s.len

/-! ### What an instruction does -/

/-- An instruction of the eight one-byte classes whose byte does not fill the row (R71, R74 to R80, R100 to R104). -/
def Obligations.OneByteInstructionFits : Prop :=
  ∀ (x : BitVec 4) (s : State), s.phase = .pack → s.instLeft = 0 → s.pc + 1 ≤ s.len → 1 < s.spaceLeft →
    let t := { s with
      nStart := if s.spaceLeft = 13 then 0 else s.nStart, startPc := if s.spaceLeft = 13 then s.pc else s.startPc,
      pc := s.pc + 1, spaceLeft := s.spaceLeft - 1 }
    exec (.one0 x) s = .next t ∧ exec (.one2 x) s = .next t ∧ exec (.one3 x) s = .next t ∧ exec (.one4 x) s = .next t ∧
      exec (.one5 x) s = .next t ∧ exec (.one6 x) s = .next t ∧ exec (.one7 x) s = .next t ∧ exec (.one8 x) s = .next t

/-- An instruction of the four two-byte classes with more than two bytes of room in the row (R81 to R84, R100 to R104). -/
def Obligations.TwoByteInstructionFits : Prop :=
  ∀ (x : BitVec 4) (y : BitVec 1) (b1 : Byte) (s : State), s.phase = .pack → s.instLeft = 0 → s.pc + 2 ≤ s.len →
    2 < s.spaceLeft →
    let t := { s with
      nStart := if s.spaceLeft = 13 then 0 else s.nStart, startPc := if s.spaceLeft = 13 then s.pc else s.startPc,
      pc := s.pc + 2, spaceLeft := s.spaceLeft - 2 }
    exec (.two9 x b1) s = .next t ∧ exec (.twoA x b1) s = .next t ∧ exec (.twoB x b1) s = .next t ∧
      exec (.cshort y b1) s = .next t

/-- An instruction of the three three-byte classes with more than three bytes of room in the row; an `END` is packed as any
other (R86 to R88, R100 to R104). -/
def Obligations.ThreeByteInstructionFits : Prop :=
  ∀ (x : BitVec 4) (b1 b2 : Byte) (s : State), s.phase = .pack → s.instLeft = 0 → s.pc + 3 ≤ s.len → 3 < s.spaceLeft →
    let t := { s with
      nStart := if s.spaceLeft = 13 then 0 else s.nStart, startPc := if s.spaceLeft = 13 then s.pc else s.startPc,
      pc := s.pc + 3, spaceLeft := s.spaceLeft - 3 }
    exec (.endMark x b1 b2) s = .next t ∧ exec (.threeD x b1 b2) s = .next t ∧ exec (.threeE x b1 b2) s = .next t

/-- An instruction of the four classes of variable length with more room in the row than its length: `1 + run` for
`DIGITS`, `2 + b1[3:0]` for `ALPHA`, `3 + b2[3:0]` for `GLABEL`, `1 + b0[3:0]` for `TEXT` (R72, R73, R85, R89,
R100 to R104). -/
def Obligations.VariableLengthInstructionFits : Prop :=
  ∀ (op b1 b2 : Byte) (x : BitVec 4) (body : List Byte) (n : Nat) (s : State), s.phase = .pack → s.instLeft = 0 →
    s.pc + n ≤ s.len → n < s.spaceLeft →
    let t := { s with
      nStart := if s.spaceLeft = 13 then 0 else s.nStart, startPc := if s.spaceLeft = 13 then s.pc else s.startPc,
      pc := s.pc + n, spaceLeft := s.spaceLeft - n }
    (n = 1 + body.length → exec (.digits op body) s = .next t) ∧
      (n = 2 + b1.toNat % 16 → exec (.alpha op b1 body) s = .next t) ∧
      (n = 3 + b2.toNat % 16 → exec (.glabel x b1 b2 body) s = .next t) ∧
      (n = 1 + x.toNat → exec (.text x body) s = .next t)

/-- An instruction of any class that reaches the end of the row: the row is put out with the payload of the Program, its
sequence number, `n_start` and `n_end` (0 when the instruction ends with the row), the sequence counter advances, the next
row is empty and the rest of the instruction is owed (R102 to R106, 44_row_emitter.md R130 to R133). An instruction of
more than 13 bytes that opens the row gives it `n_start = 0` and `n_end = 13`: the model's choice where R102, R105 and R110
differ from R106 and R111, log 37. -/
def Obligations.InstructionFillsRow : Prop :=
  ∀ (i : Instr) (s : State) (bs : List Byte) (start ns ne : Nat) (c : Byte), s.phase = .pack → s.instLeft = 0 →
    Holds s bs → s.pc + i.length ≤ s.len → 1 ≤ s.spaceLeft → s.spaceLeft ≤ 13 → s.spaceLeft ≤ i.length →
    start = (if s.spaceLeft = 13 then s.pc else s.startPc) → start + 13 = s.pc + s.spaceLeft →
    ns = (if s.spaceLeft = 13 then 0 else s.nStart) → ne = (if s.spaceLeft < i.length then s.spaceLeft else 0) →
    c = csFold s.checksum (typeByte s.sequence :: overflowByte ns ne :: (bs.drop start).take 13) →
    exec i s = .next { s with
      nStart := ns, startPc := start, pc := s.pc + s.spaceLeft, spaceLeft := 13, instLeft := i.length - s.spaceLeft,
      sequence := s.sequence + 1#4, checksum := c,
      out := s.out ++ ([0x0F#8, c, typeByte s.sequence, overflowByte ns ne] ++ (bs.drop start).take 13) }

/-- An instruction of any class whose bytes run past `L` takes `MalformedTail`, and nothing else of its `STEP` happens
(R103, 60_exceptions.md R152, R157). -/
def Obligations.InstructionOverrunRaises : Prop :=
  ∀ (i : Instr) (s : State), s.phase = .pack → s.instLeft = 0 → s.len < s.pc + i.length →
    exec i s = .next { s with phase := .fault, fault := .malformedTail }

/-- No instruction does anything outside phase `PACK` (45_host_operations.md R140, R146; the refusal's name is the model's,
log 12). -/
def Obligations.InstructionNeedsPackPhase : Prop :=
  ∀ (i : Instr) (s : State), s.phase ≠ .pack → exec i s = .refused (.notEnabled .step s.phase)

/-- The frame of every instruction: the Program, `L`, the parameters and the host's side are as before; `n_start` and
`start_pc` change only where a row is opened; `checksum`, `sequence` and `out` change only together, where a record is put
out; a fault changes `phase` and `fault` only (R31, R102 to R105, R157). -/
def Obligations.InstructionFrame : Prop :=
  ∀ (i : Instr) (s t : State), exec i s = .next t →
    t.params = s.params ∧ t.len = s.len ∧ t.taken = s.taken ∧ t.pins = s.pins ∧
      (∀ a, memGet t.prog a = memGet s.prog a) ∧
      (s.spaceLeft ≠ 13 → t.nStart = s.nStart ∧ t.startPc = s.startPc) ∧
      (t = { s with phase := .fault, fault := .malformedTail } ∨
        (t.phase = s.phase ∧ t.fault = s.fault ∧
          ((t.out = s.out ∧ t.checksum = s.checksum ∧ t.sequence = s.sequence) ∨
            (∃ r, t.out = s.out ++ rowBytes r ∧ t.checksum = r.checksum ∧ t.sequence = s.sequence + 1#4))))

/-! ### One step -/

/-- In phase `PACK` without `rst` a step is one `STEP` of LBRE, after the host's side of the moment, whatever the host
offers (R140, R144). -/
def Obligations.StepInPackIsOneSTEP : Prop :=
  ∀ (s : State), s.phase = .pack → (pinsNow s).rst = false → step s = packStep (passMoment s)

/-- In phase `PACK`, with nothing owed and no reset, a step is the meaning of the instruction decoded at `pc`, after the
host's side of the moment (R100, R144). -/
def Obligations.StepRunsDecodedInstruction : Prop :=
  ∀ (s : State) (i : Instr), s.phase = .pack → (pinsNow s).rst = false → s.pc < s.len → s.instLeft = 0 →
    fetch s = .ok i → step s = exec i (passMoment s)

/-- The same from the bytes of the Program: where they are the encoding of a well-formed instruction, the step runs that
instruction (R46, R50, R100). -/
def Obligations.StepRunsEncodedBytes : Prop :=
  ∀ (s : State) (i : Instr) (bs rest : List Byte), s.phase = .pack → (pinsNow s).rst = false → s.instLeft = 0 →
    Holds s bs → bs.drop s.pc = encode i ++ rest → i.wf s.params.digitRunMax = true →
    endedBy s.params.digitRunMax i rest → step s = exec i (passMoment s)

/-- A `STEP` with bytes still owed of an instruction decodes nothing: it opens a row if one is due (with `n_start` the bytes
owed, capped at 13) and places more bytes; where they all fit and leave room (R100, R102, R104). -/
def Obligations.StepContinuesInstruction : Prop :=
  ∀ (s : State), s.phase = .pack → s.pc < s.len → 0 < s.instLeft → s.instLeft < s.spaceLeft →
    packStep s = .next { s with
      nStart := if s.spaceLeft = 13 then min 13 s.instLeft else s.nStart,
      startPc := if s.spaceLeft = 13 then s.pc else s.startPc,
      pc := s.pc + s.instLeft, spaceLeft := s.spaceLeft - s.instLeft, instLeft := 0 }

/-- A `STEP` that fills a whole row with bytes still owed of an instruction begun in an earlier row: `n_start = 13`, and
`n_end = 13` unless the instruction ends with the row (R102, R105, R106). The row an instruction opens itself is
`InstructionFillsRow`'s: there `n_start` is 0, against the last sentence of R111 (log 37). -/
def Obligations.StepPacksRowInsideInstruction : Prop :=
  ∀ (s : State) (bs : List Byte) (ne : Nat) (c : Byte), s.phase = .pack → Holds s bs → s.spaceLeft = 13 →
    13 ≤ s.instLeft → s.pc + 13 ≤ s.len → ne = (if s.instLeft = 13 then 0 else 13) →
    c = csFold s.checksum (typeByte s.sequence :: overflowByte 13 ne :: (bs.drop s.pc).take 13) →
    packStep s = .next { s with
      nStart := 13, startPc := s.pc, pc := s.pc + 13, instLeft := s.instLeft - 13, sequence := s.sequence + 1#4,
      checksum := c, out := s.out ++ ([0x0F#8, c, typeByte s.sequence, overflowByte 13 ne] ++ (bs.drop s.pc).take 13) }

/-- The final flush, `pc = L`: an open row is put out with `n_end = 0`, a row boundary puts out nothing; `phase` becomes
`DONE` and `sequence`, `space_left`, `pc`, `inst_left`, `n_start`, `start_pc` keep their values (R107). -/
def Obligations.FinalFlush : Prop :=
  ∀ (s : State) (bs : List Byte) (c : Byte), s.phase = .pack → s.pc = s.len →
    (s.spaceLeft = 13 → packStep s = .next { s with phase := .done }) ∧
    (Holds s bs → s.spaceLeft < 13 → s.startPc + (13 - s.spaceLeft) = s.len →
      c = csFold s.checksum (typeByte s.sequence :: overflowByte s.nStart 0 :: bs.drop s.startPc) →
      packStep s = .next { s with
        phase := .done, checksum := c,
        out := s.out ++ ([lengthByte (13 - s.spaceLeft), c, typeByte s.sequence, overflowByte s.nStart 0] ++
          bs.drop s.startPc) })

/-- A `STEP` that cannot resolve an instruction within `L` takes `MalformedTail`; every other element of LBRE is as before
the `STEP`, the writes of step 1 undone (60_exceptions.md R152, R157). -/
def Obligations.MalformedTailUndoesStep : Prop :=
  ∀ (s : State), s.phase = .pack → (pinsNow s).rst = false → s.pc < s.len → s.instLeft = 0 →
    (progInstLen s s.pc = .error .malformedTail ∨ (∃ n, progInstLen s s.pc = .ok n ∧ s.len < s.pc + n)) →
    step s = .next { s with
      phase := .fault, fault := .malformedTail,
      taken := if s.taken < s.out.length ∧ (pinsNow s).outReady = true then s.taken + 1 else s.taken, pins := s.pins.tail }

/-! ### The host's operations -/

/-- Reset: `State.reset` and, in every phase and whatever else the pins show, the state a step reaches when `rst` is
asserted have every register at its value of 70_reset_and_hazards.md R170; `Prog` and the parameters are not touched. -/
def Obligations.ResetPutsRegisters : Prop :=
  (State.reset.checksum = 0#8 ∧ State.reset.spaceLeft = 13 ∧ State.reset.instLeft = 0 ∧ State.reset.sequence = 0#4 ∧
    State.reset.pc = 0 ∧ State.reset.nStart = 0 ∧ State.reset.startPc = 0 ∧ State.reset.len = 0 ∧
    State.reset.phase = .load ∧ State.reset.fault = .none ∧ State.reset.out = []) ∧
  ∀ s : State, (pinsNow s).rst = true → ∃ n ps, step s = .next
    { params := s.params, prog := s.prog, len := 0, pc := 0, spaceLeft := 13, instLeft := 0, nStart := 0, startPc := 0,
      sequence := 0#4, checksum := 0#8, phase := .load, fault := .none, out := [], taken := n, pins := ps }

/-- `PUSH(b)` in phase `LOAD`: below `CAP` the byte is stored at `L` as it is, `L` grows by 1 and every other byte of the
Program reads as before; at `CAP` the fault `CapacityExceeded` is taken, or with `ON_OVERFLOW = TRUNCATE` nothing changes;
in other phases there is no `PUSH` (45_host_operations.md R142). -/
def Obligations.PushLoadsOneByte : Prop :=
  ∀ (b : Byte) (s : State),
    (s.phase = .load → s.len < s.params.cap →
      ∃ m, push b s = .next { s with prog := m, len := s.len + 1 } ∧ memGet m s.len = some b ∧
        ∀ a, a ≠ s.len → memGet m a = memGet s.prog a) ∧
    (s.phase = .load → s.params.cap ≤ s.len → s.params.onOverflow = .fault →
      push b s = .next { s with phase := .fault, fault := .capacityExceeded }) ∧
    (s.phase = .load → s.params.cap ≤ s.len → s.params.onOverflow = .truncate → push b s = .next s) ∧
    (s.phase ≠ .load → push b s = .refused (.notEnabled .push s.phase))

/-- `FINISH` normalises: a tail whose first of three bytes has high nibble `0xC` and whose last has bit 7 clear is
overwritten with the canonical terminator and `L` stays; otherwise, and when there are fewer than three bytes, the
terminator is appended and `L` grows by 3; no earlier byte changes (40_normalizer.md R61 to R64). -/
def Obligations.FinishNormalisesTail : Prop :=
  ∀ (s : State) (bs : List Byte), s.phase = .load → Holds s bs → s.len ≤ s.params.cap →
    (∀ f l, 3 ≤ s.len → bs[s.len - 3]? = some f → bs[s.len - 1]? = some l → f.toNat / 16 = 0xC → l.toNat < 0x80 →
      ∃ m, finish s = .next { s with prog := m, phase := .pack } ∧
        Holds { s with prog := m, phase := .pack } (bs.take (s.len - 3) ++ Config.term)) ∧
    ((s.len < 3 ∨ ∃ f l, bs[s.len - 3]? = some f ∧ bs[s.len - 1]? = some l ∧ (f.toNat / 16 ≠ 0xC ∨ 0x80 ≤ l.toNat)) →
      ∃ m, finish s = .next { s with prog := m, len := s.len + 3, phase := .pack } ∧
        Holds { s with prog := m, len := s.len + 3, phase := .pack } (bs ++ Config.term))

/-- In phase `LOAD` a token on the input channel is the operation it stands for, `FINISH` where `in_end` is 1 and
`PUSH(in_data)` where it is 0 (R147). -/
def Obligations.TokenAcceptedInLoad : Prop :=
  ∀ (s : State), s.phase = .load → (pinsNow s).rst = false → (pinsNow s).inValid = true →
    step s = (if (pinsNow s).inEnd = true then finish (passMoment s) else push (pinsNow s).inData (passMoment s))

/-- `Normalise()` twice is `Normalise()` once (40_normalizer.md R65). On a Program that already ends in the canonical
terminator it answers with the same `L`, every byte reading as before and no register changed (on a buffer in canonical
form, with the same state). After any `Normalise()` the Program ends in the terminator, `L` is as it was or grown by 3, no
byte before the terminator and no register has changed; and a second `Normalise()` changes nothing. -/
def Obligations.NormalisationIsIdempotent : Prop :=
  ∀ s : State,
    (∀ pre, Holds s (pre ++ Config.term) → s.len ≤ s.params.bufBytes →
      (∃ m, normalise s = .ok { s with prog := m } ∧ ∀ a, memGet m a = memGet s.prog a) ∧
        (s.prog.wf → normalise s = .ok s)) ∧
    (∀ t, normalise s = .ok t →
      (3 ≤ t.len ∧ (t.len = s.len ∨ t.len = s.len + 3) ∧ t = { s with prog := t.prog, len := t.len } ∧
        memGet t.prog (t.len - 3) = some 0xC0#8 ∧ memGet t.prog (t.len - 2) = some 0x00#8 ∧
        memGet t.prog (t.len - 1) = some 0x2F#8 ∧ (∀ a, a < t.len - 3 → memGet t.prog a = memGet s.prog a)) ∧
      (∃ m, normalise t = .ok { t with prog := m } ∧ ∀ a, memGet m a = memGet t.prog a) ∧
        (s.prog.wf → normalise t = .ok t))

/-- In phase `LOAD`, where `L <= CAP`, `Normalise()` always answers, and makes of the Program `bs` the Program
`normalised bs`, in which the statements about whole runs speak (R60 to R64). -/
def Obligations.NormaliseComputesNormalised : Prop :=
  ∀ (s : State) (bs : List Byte), Holds s bs → s.len ≤ s.params.cap →
    ∃ t, normalise s = .ok t ∧ Holds t (normalised bs) ∧ t = { s with prog := t.prog, len := t.len }

/-- A token offered in phase `PACK` is not accepted: LBRE performs the same `STEP` as without it (R146, R176 a); the
model's moment passes for the host (log 26). -/
def Obligations.TokenIgnoredWhilePacking : Prop :=
  ∀ (s : State) (p : PortIn) (ps : List PortIn), s.phase = .pack → p.rst = false →
    step { s with pins := p :: ps } = step { s with pins := { p with inValid := false } :: ps }

/-- `DONE` and `FAULT` are sticky: without `rst` no element of LBRE ever changes there, `fault` among them, whatever the
host offers, and when the host's pins show nothing more there is no step (R145, 60_exceptions.md R158; that the model refuses
there is log 25, that other moments pass is log 26). -/
def Obligations.DoneAndFaultAreFrozen : Prop :=
  ∀ (s : State), (s.phase = .done ∨ s.phase = .fault) → (pinsNow s).rst = false →
    (s.pins = [] → step s = .refused (.notEnabled .step s.phase)) ∧
    (s.pins ≠ [] → ∃ n, step s = .next { s with taken := n, pins := s.pins.tail })

/-- Output bytes are offered in order, each once: without `rst`, a moment with `out_ready` takes the byte at `out_data`
when `out_valid` is high, and a moment without it takes none; the step does not change the byte that was offered (R147; the model's count
of bytes taken is log 24). -/
def Obligations.HostTakesOutputInOrder : Prop :=
  ∀ (s t : State), (pinsNow s).rst = false → step s = .next t →
    t.taken = (if outValid s = true ∧ (pinsNow s).outReady = true then s.taken + 1 else s.taken) ∧
      (∀ b, outData s = some b → t.out[s.taken]? = some b)

/-! ### What no step does -/

/-- Nothing writes the Program, or `L`, outside phase `LOAD` (but `RESET` sets `L`) (20_memory.md R31, R42). -/
def Obligations.ProgramImmutableAfterFinish : Prop :=
  ∀ (s t : State), s.phase ≠ .load → step s = .next t →
    t.prog = s.prog ∧ ((pinsNow s).rst = false → t.len = s.len)

/-- No step changes a parameter of the instance (R24, R148). -/
def Obligations.ParametersNeverChange : Prop :=
  ∀ (s t : State), step s = .next t → t.params = s.params

/-- Without `rst`, `out` grows only by one whole row record, and only by a `STEP` (R22, R133, R144). -/
def Obligations.OutputGrowsByWholeRecords : Prop :=
  ∀ (s t : State), (pinsNow s).rst = false → step s = .next t →
    t.out = s.out ∨ (s.phase = .pack ∧ ∃ r : Row, t.out = s.out ++ rowBytes r)

/-- `phase` changes only as R20 lists, and `fault` is written only together with `phase <- FAULT` or cleared by `RESET`
(R20, R21). -/
def Obligations.PhaseTransitions : Prop :=
  ∀ (s t : State), step s = .next t →
    ((pinsNow s).rst = true ∧ t.phase = .load ∧ t.fault = .none) ∨
    ((pinsNow s).rst = false ∧ t.phase = s.phase ∧ t.fault = s.fault) ∨
    ((pinsNow s).rst = false ∧ s.phase = .load ∧ (pinsNow s).inValid = true ∧ (pinsNow s).inEnd = true ∧
      t.phase = .pack ∧ t.fault = s.fault) ∨
    ((pinsNow s).rst = false ∧ s.phase = .load ∧ (pinsNow s).inValid = true ∧ (pinsNow s).inEnd = false ∧
      s.params.onOverflow = .fault ∧ t.phase = .fault ∧ t.fault = .capacityExceeded) ∨
    ((pinsNow s).rst = false ∧ s.phase = .pack ∧ s.len ≤ s.pc ∧ t.phase = .done ∧ t.fault = s.fault) ∨
    ((pinsNow s).rst = false ∧ s.phase = .pack ∧ t.phase = .fault ∧ t.fault = .malformedTail)

/-- Every `STEP` with `pc < L` raises `pc` by 1 to 13, never past `L`, or takes `MalformedTail` with `pc` where it was
(R13, R104, R108, R109). -/
def Obligations.PcStrictlyIncreases : Prop :=
  ∀ (s t : State), Inv s → s.phase = .pack → s.pc < s.len → (pinsNow s).rst = false → step s = .next t →
    (t.phase = .pack ∧ s.pc < t.pc ∧ t.pc ≤ s.pc + 13 ∧ t.pc ≤ s.len) ∨
    (t.phase = .fault ∧ t.fault = .malformedTail ∧ t.pc = s.pc ∧ s.instLeft = 0)

/-- Program bytes at or above `L` are never read: two states that differ only there step alike, and stay so (R11, R32). -/
def Obligations.BytesAboveLAreNeverRead : Prop :=
  ∀ (s s' : State), SameBelowL s s' →
    (∀ t, step s = .next t → ∃ t', step s' = .next t' ∧ SameBelowL t t') ∧
    (∀ r, step s = .fault r → step s' = .fault r) ∧ (∀ r, step s = .refused r → step s' = .refused r)

/-! ### The checksum and the row record -/

/-- `CsAdd(s, b)` (43_checksum.md R121). -/
def Obligations.CsAddIsEndAroundCarry : Prop :=
  ∀ c b : Byte, (csAdd c b).toNat = (if c.toNat + b.toNat ≤ 255 then c.toNat + b.toNat else c.toNat + b.toNat - 255)

/-- The accumulator is congruent, modulo 255, to its start and the plain sum of all bytes added (R125 c). -/
def Obligations.ChecksumIsSumModulo255 : Prop :=
  ∀ (c : Byte) (bs : List Byte), (csFold c bs).toNat % 255 = (c.toNat + (bs.map BitVec.toNat).sum) % 255

/-- The accumulator is 0 only where nothing but zeros was ever added to 0; so every emitted checksum byte is not 0
(R125 d). -/
def Obligations.ChecksumNeverReturnsToZero : Prop :=
  (∀ (c : Byte) (bs : List Byte), csFold c bs = 0#8 ↔ (c = 0#8 ∧ ∀ b ∈ bs, b = 0#8)) ∧
    ∀ (s : State) (payload : List Byte) (ns ne : Nat), (makeRow s payload ns ne).checksum ≠ 0#8

/-- The header bytes of a row (30_encoding.md R52, R53, R54): `p + 2`; type code 1 over the sequence number; `n_start`
over `n_end`. -/
def Obligations.HeaderByteValues : Prop :=
  (∀ p, p ≤ 13 → (lengthByte p).toNat = p + 2) ∧ (∀ q : BitVec 4, (typeByte q).toNat = 0x10 + q.toNat) ∧
    ∀ ns ne, ns ≤ 13 → ne ≤ 13 → (overflowByte ns ne).toNat = 16 * ns + ne

/-- `EmitRow(start, p, ns, ne)`: the record is length, checksum, type, overflow, payload; the checksum folds type, overflow
and payload from the register's value and becomes the register's value; nothing else changes, `sequence` among it
(44_row_emitter.md R130 to R134). -/
def Obligations.EmitRowPutsOutRecord : Prop :=
  ∀ (s : State) (bs : List Byte) (start p ns ne : Nat) (c : Byte), Holds s bs → start + p ≤ s.len →
    c = csFold s.checksum ([typeByte s.sequence, overflowByte ns ne] ++ (bs.drop start).take p) →
    emitRow start p ns ne s = .ok { s with
      checksum := c,
      out := s.out ++ ([lengthByte p, c, typeByte s.sequence, overflowByte ns ne] ++ (bs.drop start).take p) }

/-! ### Invariants -/

/-- The state after reset meets the invariants (R26). -/
def Obligations.InvariantsHoldAtReset : Prop := Inv State.reset

/-- Every step keeps the invariants of R26, from every state that meets them. -/
def Obligations.EveryStepKeepsInvariants : Prop :=
  ∀ s t : State, Inv s → step s = .next t → Inv t

/-- From every state that meets the invariants, no step reads a byte nothing wrote or writes outside the storage: the
model's own faults (log 28, log 29) are never met, and the only refusal is that no operation is enabled and the host is
silent (log 25) (R32, R33, R150). -/
def Obligations.NoStepStopsTheModel : Prop :=
  ∀ s : State, Inv s →
    (∃ t, step s = .next t) ∨ (s.pins = [] ∧ s.phase ≠ .pack ∧ step s = .refused (.notEnabled .step s.phase))

/-- The registers of width `AW` fit it, where `2^AW > CAP + 3`, and the port `pc` shows the register (R4, R10, R147). -/
def Obligations.RegistersFitTheirWidths : Prop :=
  ∀ s : State, Inv s →
    s.len < 2 ^ s.params.addrWidth ∧ s.pc ≤ s.len ∧ s.instLeft ≤ s.len ∧ s.startPc ≤ s.len ∧ s.spaceLeft ≤ 13 ∧
      s.nStart ≤ 13 ∧ (pcPort s).toNat = s.pc

/-- At `DONE` the total length of `out` is `L + 4 * ceil(L / 13)` (44_row_emitter.md R136 e, 42_row_packer.md R110 b). -/
def Obligations.OutputLengthAtDone : Prop :=
  ∀ s : State, Inv s → s.phase = .done → s.out.length = s.len + 4 * ((s.len + 12) / 13)

/-! ### Whole runs -/

/-- Packing ends: in phase `PACK` with a silent host, LBRE reaches `DONE` or `FAULT` within `L - pc + 1` steps (R108). -/
def Obligations.PackingTerminates : Prop :=
  ∀ s : State, Inv s → s.phase = .pack → s.pins = [] →
    ∃ k t, k ≤ s.len - s.pc + 1 ∧ Host.Core.run core k s = .next t ∧ (t.phase = .done ∨ t.phase = .fault)

/-- The packer computes the output stream of the whole Program: from any Program of any state about to pack, it reaches
`DONE` with exactly the reference stream, or `MalformedTail` when an instruction runs past the end (R110, R149). -/
def Obligations.PackerRefinesReference : Prop :=
  ∀ (s : State) (bs : List Byte), s.phase = .pack → s.fault = .none → Fresh s → Holds s bs → s.pins = [] →
    (∀ o, referenceOut s.params.digitRunMax bs = some o →
      ∃ k t, k ≤ bs.length + 1 ∧ Host.Core.run core k s = .next t ∧ t.phase = .done ∧ t.fault = .none ∧ t.out = o) ∧
    (referenceOut s.params.digitRunMax bs = none →
      ∃ k t, k ≤ bs.length + 1 ∧ Host.Core.run core k s = .next t ∧ t.phase = .fault ∧ t.fault = .malformedTail)

/-- The function LBRE computes (45_host_operations.md R149): for every input, every instance and whatever the Program
buffer held before, a host that pushes the bytes and gives `FINISH` gets the reference stream of the normalised input, or
the fault `MalformedTail`; with `ON_OVERFLOW = TRUNCATE` bytes beyond `CAP` are not read. -/
def Obligations.EncoderComputesReference : Prop :=
  ∀ (s : State) (input : List Byte), s.phase = .load → s.fault = .none → s.len = 0 → Fresh s →
    s.pins = hostPins input → (input.length ≤ s.params.cap ∨ s.params.onOverflow = .truncate) →
    (∀ o, referenceOut s.params.digitRunMax (normalised (input.take s.params.cap)) = some o →
      ∃ k t, Host.Core.run core k s = .next t ∧ t.phase = .done ∧ t.fault = .none ∧ t.out = o) ∧
    (referenceOut s.params.digitRunMax (normalised (input.take s.params.cap)) = none →
      ∃ k t, Host.Core.run core k s = .next t ∧ t.phase = .fault ∧ t.fault = .malformedTail)

/-- With `ON_OVERFLOW = FAULT`, an input longer than `CAP` ends in `CapacityExceeded` at push number `CAP + 1`, with `CAP`
bytes loaded and nothing put out (R149 b, R151). -/
def Obligations.OverlongInputRaisesCapacityExceeded : Prop :=
  ∀ (s : State) (input : List Byte), s.phase = .load → s.len = 0 → Fresh s → s.pins = hostPins input →
    s.params.cap < input.length → s.params.onOverflow = .fault →
    ∃ t, Host.Core.run core (s.params.cap + 1) s = .next t ∧ t.phase = .fault ∧ t.fault = .capacityExceeded ∧
      t.len = s.params.cap ∧ t.pc = 0 ∧ t.out = [] ∧ ∀ a b, input[a]? = some b → a < s.params.cap → memGet t.prog a = some b
end

