-- ==== Sys2Proof/Laws/Decode.lean ====
section
/-! SUPPORT. Small laws of the decoder's parts (spec/30_encoding.md R47, R48, spec/41_length_decoder.md R70, R72). -/

namespace Sys2Proof

@[simp] theorem hiNibble_append (h x : BitVec 4) : hiNibble (h ++ x) = h := by
  revert h x; decide

@[simp] theorem loNibble_append (h x : BitVec 4) : loNibble (h ++ x) = x := by
  revert h x; decide

theorem hiNibble_append_loNibble (b : Byte) : hiNibble b ++ loNibble b = b := by
  revert b; decide

theorem toNat_loNibble (b : Byte) : (loNibble b).toNat = b.toNat % 16 := by
  simp [loNibble, BitVec.extractLsb'_toNat]

theorem toNat_hiNibble (b : Byte) : (hiNibble b).toNat = b.toNat / 16 := by
  revert b; decide

theorem highBit_eq (b : Byte) : highBit b = decide (0x80 ≤ b.toNat) := by
  revert b; decide

@[simp] theorem getLast_shift_append (x : BitVec 1) : (0x67#7 ++ x : Byte).extractLsb' 0 1 = x := by
  revert x; decide

@[simp] theorem opTag_one0 (x : BitVec 4) : opTag (0x0#4 ++ x) = .one0 := by revert x; decide
@[simp] theorem opTag_one2 (x : BitVec 4) : opTag (0x2#4 ++ x) = .one2 := by revert x; decide
@[simp] theorem opTag_one3 (x : BitVec 4) : opTag (0x3#4 ++ x) = .one3 := by revert x; decide
@[simp] theorem opTag_one4 (x : BitVec 4) : opTag (0x4#4 ++ x) = .one4 := by revert x; decide
@[simp] theorem opTag_one5 (x : BitVec 4) : opTag (0x5#4 ++ x) = .one5 := by revert x; decide
@[simp] theorem opTag_one6 (x : BitVec 4) : opTag (0x6#4 ++ x) = .one6 := by revert x; decide
@[simp] theorem opTag_one7 (x : BitVec 4) : opTag (0x7#4 ++ x) = .one7 := by revert x; decide
@[simp] theorem opTag_one8 (x : BitVec 4) : opTag (0x8#4 ++ x) = .one8 := by revert x; decide
@[simp] theorem opTag_two9 (x : BitVec 4) : opTag (0x9#4 ++ x) = .two9 := by revert x; decide
@[simp] theorem opTag_twoA (x : BitVec 4) : opTag (0xA#4 ++ x) = .twoA := by revert x; decide
@[simp] theorem opTag_twoB (x : BitVec 4) : opTag (0xB#4 ++ x) = .twoB := by revert x; decide
@[simp] theorem opTag_cshort (x : BitVec 1) : opTag (0x67#7 ++ x) = .cshort := by revert x; decide
@[simp] theorem opTag_threeD (x : BitVec 4) : opTag (0xD#4 ++ x) = .threeD := by revert x; decide
@[simp] theorem opTag_threeE (x : BitVec 4) : opTag (0xE#4 ++ x) = .threeE := by revert x; decide
@[simp] theorem opTag_text (x : BitVec 4) : opTag (0xF#4 ++ x) = .text := by revert x; decide

theorem opTag_labelOrEnd {x : BitVec 4} (h : x.toNat ≤ 0xD) : opTag (0xC#4 ++ x) = .labelOrEnd := by
  revert x; decide

theorem opTag_digits {b : Byte} (h : 0x10 ≤ b.toNat ∧ b.toNat ≤ 0x1C) : opTag b = .digits := by
  simp [opTag, show ¬ b.toNat ≤ 0x0F by omega, h.2]

theorem opTag_alpha {b : Byte} (h : 0x1D ≤ b.toNat ∧ b.toNat ≤ 0x1F) : opTag b = .alpha := by
  simp [opTag, show ¬ b.toNat ≤ 0x0F by omega, show ¬ b.toNat ≤ 0x1C by omega, h.2]

/-- The scan of a digit run: it counts `k` bytes exactly when `k` run bytes are followed by a byte outside the run range,
all of them before the fuel is used up. -/
theorem scanRun_ok_iff {read : Nat → Except Reject Byte} {runMax : Byte} {fuel a k : Nat} :
    scanRun read runMax fuel a = .ok k ↔
      k < fuel ∧ (∀ j, j < k → ∃ r, read (a + j) = .ok r ∧ inRun runMax r = true) ∧
        ∃ r, read (a + k) = .ok r ∧ inRun runMax r = false := by
  induction fuel generalizing a k with
  | zero => simp [scanRun]
  | succ fuel ih =>
    unfold scanRun
    constructor
    · intro h
      split at h
      · cases h
      · rename_i r hr
        split at h
        · rename_i hin
          split at h
          · cases h
          · rename_i m hm
            obtain ⟨h1, h2, h3⟩ := ih.1 hm
            cases h
            refine ⟨by omega, fun j hj => ?_, by simpa [Nat.add_assoc, Nat.add_comm 1 m] using h3⟩
            cases j with
            | zero => exact ⟨r, by simpa using hr, hin⟩
            | succ j => simpa [Nat.add_assoc, Nat.add_comm 1 j] using h2 j (by omega)
        · rename_i hin
          cases h
          exact ⟨by omega, fun j hj => absurd hj (by omega), r, by simpa using hr, by simpa using hin⟩
    · rintro ⟨h1, h2, h3⟩
      cases k with
      | zero =>
        obtain ⟨r, hr, hin⟩ := h3
        simp only [Nat.add_zero] at hr
        simp [hr, hin]
      | succ k =>
        obtain ⟨r, hr, hin⟩ := h2 0 (by omega)
        simp only [Nat.add_zero] at hr
        have ht : scanRun read runMax fuel (a + 1) = .ok k := ih.2 ⟨by omega, fun j hj => by
          simpa [Nat.add_assoc, Nat.add_comm 1 j] using h2 (j + 1) (by omega), by
          simpa [Nat.add_assoc, Nat.add_comm 1 k] using h3⟩
        simp [hr, hin, ht]

/-- An instruction that decodes has its length resolved, its bytes before the end, and is put together from them. -/
theorem decodeAt_ok {read : Nat → Except Reject Byte} {runMax : Byte} {limit o : Nat} {i : Instr}
    (h : decodeAt read runMax limit o = .ok i) :
    ∃ n bs, instLen read runMax limit o = .ok n ∧ o + n ≤ limit ∧ readRange read n o = .ok bs ∧ i = assemble bs := by
  unfold decodeAt at h
  split at h
  · cases h
  · rename_i n hn
    split at h
    · cases h
    · split at h
      · cases h
      · rename_i bs hbs
        exact ⟨n, bs, hn, by omega, hbs, (Except.ok.inj h).symm⟩

end Sys2Proof
end

