-- ==== Sys2Proof/Laws/State.lean ====
section
/-! SUPPORT. Every field after every update of the state: one lemma each, so that no proof unfolds a record update. -/

namespace Sys2Proof.Machine

/-! ### raise: taking a fault (60_exceptions.md R157) -/

@[simp] theorem raise_params (f : FaultCode) (s : State) : (raise f s).params = s.params := rfl
@[simp] theorem raise_prog (f : FaultCode) (s : State) : (raise f s).prog = s.prog := rfl
@[simp] theorem raise_len (f : FaultCode) (s : State) : (raise f s).len = s.len := rfl
@[simp] theorem raise_pc (f : FaultCode) (s : State) : (raise f s).pc = s.pc := rfl
@[simp] theorem raise_spaceLeft (f : FaultCode) (s : State) : (raise f s).spaceLeft = s.spaceLeft := rfl
@[simp] theorem raise_instLeft (f : FaultCode) (s : State) : (raise f s).instLeft = s.instLeft := rfl
@[simp] theorem raise_nStart (f : FaultCode) (s : State) : (raise f s).nStart = s.nStart := rfl
@[simp] theorem raise_startPc (f : FaultCode) (s : State) : (raise f s).startPc = s.startPc := rfl
@[simp] theorem raise_sequence (f : FaultCode) (s : State) : (raise f s).sequence = s.sequence := rfl
@[simp] theorem raise_checksum (f : FaultCode) (s : State) : (raise f s).checksum = s.checksum := rfl
@[simp] theorem raise_phase (f : FaultCode) (s : State) : (raise f s).phase = .fault := rfl
@[simp] theorem raise_fault (f : FaultCode) (s : State) : (raise f s).fault = f := rfl
@[simp] theorem raise_out (f : FaultCode) (s : State) : (raise f s).out = s.out := rfl
@[simp] theorem raise_taken (f : FaultCode) (s : State) : (raise f s).taken = s.taken := rfl
@[simp] theorem raise_pins (f : FaultCode) (s : State) : (raise f s).pins = s.pins := rfl

/-! ### reset: `RESET` (45_host_operations.md R141) -/

@[simp] theorem reset_params (s : State) : (reset s).params = s.params := rfl
@[simp] theorem reset_prog (s : State) : (reset s).prog = s.prog := rfl
@[simp] theorem reset_len (s : State) : (reset s).len = 0 := rfl
@[simp] theorem reset_pc (s : State) : (reset s).pc = 0 := rfl
@[simp] theorem reset_spaceLeft (s : State) : (reset s).spaceLeft = 13 := rfl
@[simp] theorem reset_instLeft (s : State) : (reset s).instLeft = 0 := rfl
@[simp] theorem reset_nStart (s : State) : (reset s).nStart = 0 := rfl
@[simp] theorem reset_startPc (s : State) : (reset s).startPc = 0 := rfl
@[simp] theorem reset_sequence (s : State) : (reset s).sequence = 0#4 := rfl
@[simp] theorem reset_checksum (s : State) : (reset s).checksum = 0#8 := rfl
@[simp] theorem reset_phase (s : State) : (reset s).phase = .load := rfl
@[simp] theorem reset_fault (s : State) : (reset s).fault = .none := rfl
@[simp] theorem reset_out (s : State) : (reset s).out = [] := rfl
@[simp] theorem reset_taken (s : State) : (reset s).taken = 0 := rfl
@[simp] theorem reset_pins (s : State) : (reset s).pins = s.pins := rfl

/-! ### place: step 3 of an iteration (42_row_packer.md R104) -/

@[simp] theorem place_params (s : State) : (place s).params = s.params := rfl
@[simp] theorem place_prog (s : State) : (place s).prog = s.prog := rfl
@[simp] theorem place_len (s : State) : (place s).len = s.len := rfl
@[simp] theorem place_pc (s : State) : (place s).pc = s.pc + bytesFit s := rfl
@[simp] theorem place_spaceLeft (s : State) : (place s).spaceLeft = s.spaceLeft - bytesFit s := rfl
@[simp] theorem place_instLeft (s : State) : (place s).instLeft = s.instLeft - bytesFit s := rfl
@[simp] theorem place_nStart (s : State) : (place s).nStart = s.nStart := rfl
@[simp] theorem place_startPc (s : State) : (place s).startPc = s.startPc := rfl
@[simp] theorem place_sequence (s : State) : (place s).sequence = s.sequence := rfl
@[simp] theorem place_checksum (s : State) : (place s).checksum = s.checksum := rfl
@[simp] theorem place_phase (s : State) : (place s).phase = s.phase := rfl
@[simp] theorem place_fault (s : State) : (place s).fault = s.fault := rfl
@[simp] theorem place_out (s : State) : (place s).out = s.out := rfl
@[simp] theorem place_taken (s : State) : (place s).taken = s.taken := rfl
@[simp] theorem place_pins (s : State) : (place s).pins = s.pins := rfl

/-! ### nextRow: the end of step 4 (R105) -/

@[simp] theorem nextRow_params (s : State) : (nextRow s).params = s.params := rfl
@[simp] theorem nextRow_prog (s : State) : (nextRow s).prog = s.prog := rfl
@[simp] theorem nextRow_len (s : State) : (nextRow s).len = s.len := rfl
@[simp] theorem nextRow_pc (s : State) : (nextRow s).pc = s.pc := rfl
@[simp] theorem nextRow_spaceLeft (s : State) : (nextRow s).spaceLeft = 13 := rfl
@[simp] theorem nextRow_instLeft (s : State) : (nextRow s).instLeft = s.instLeft := rfl
@[simp] theorem nextRow_nStart (s : State) : (nextRow s).nStart = s.nStart := rfl
@[simp] theorem nextRow_startPc (s : State) : (nextRow s).startPc = s.startPc := rfl
@[simp] theorem nextRow_sequence (s : State) : (nextRow s).sequence = s.sequence + 1#4 := rfl
@[simp] theorem nextRow_checksum (s : State) : (nextRow s).checksum = s.checksum := rfl
@[simp] theorem nextRow_phase (s : State) : (nextRow s).phase = s.phase := rfl
@[simp] theorem nextRow_fault (s : State) : (nextRow s).fault = s.fault := rfl
@[simp] theorem nextRow_out (s : State) : (nextRow s).out = s.out := rfl
@[simp] theorem nextRow_taken (s : State) : (nextRow s).taken = s.taken := rfl
@[simp] theorem nextRow_pins (s : State) : (nextRow s).pins = s.pins := rfl

/-! ### putRow: putting a row out (44_row_emitter.md R133) -/

@[simp] theorem putRow_params (r : Row) (s : State) : (putRow r s).params = s.params := rfl
@[simp] theorem putRow_prog (r : Row) (s : State) : (putRow r s).prog = s.prog := rfl
@[simp] theorem putRow_len (r : Row) (s : State) : (putRow r s).len = s.len := rfl
@[simp] theorem putRow_pc (r : Row) (s : State) : (putRow r s).pc = s.pc := rfl
@[simp] theorem putRow_spaceLeft (r : Row) (s : State) : (putRow r s).spaceLeft = s.spaceLeft := rfl
@[simp] theorem putRow_instLeft (r : Row) (s : State) : (putRow r s).instLeft = s.instLeft := rfl
@[simp] theorem putRow_nStart (r : Row) (s : State) : (putRow r s).nStart = s.nStart := rfl
@[simp] theorem putRow_startPc (r : Row) (s : State) : (putRow r s).startPc = s.startPc := rfl
@[simp] theorem putRow_sequence (r : Row) (s : State) : (putRow r s).sequence = s.sequence := rfl
@[simp] theorem putRow_checksum (r : Row) (s : State) : (putRow r s).checksum = r.checksum := rfl
@[simp] theorem putRow_phase (r : Row) (s : State) : (putRow r s).phase = s.phase := rfl
@[simp] theorem putRow_fault (r : Row) (s : State) : (putRow r s).fault = s.fault := rfl
@[simp] theorem putRow_out (r : Row) (s : State) : (putRow r s).out = s.out ++ rowBytes r := rfl
@[simp] theorem putRow_taken (r : Row) (s : State) : (putRow r s).taken = s.taken := rfl
@[simp] theorem putRow_pins (r : Row) (s : State) : (putRow r s).pins = s.pins := rfl

/-! ### passMoment: a moment of the host (45_host_operations.md R147) -/

@[simp] theorem passMoment_params (s : State) : (passMoment s).params = s.params := rfl
@[simp] theorem passMoment_prog (s : State) : (passMoment s).prog = s.prog := rfl
@[simp] theorem passMoment_len (s : State) : (passMoment s).len = s.len := rfl
@[simp] theorem passMoment_pc (s : State) : (passMoment s).pc = s.pc := rfl
@[simp] theorem passMoment_spaceLeft (s : State) : (passMoment s).spaceLeft = s.spaceLeft := rfl
@[simp] theorem passMoment_instLeft (s : State) : (passMoment s).instLeft = s.instLeft := rfl
@[simp] theorem passMoment_nStart (s : State) : (passMoment s).nStart = s.nStart := rfl
@[simp] theorem passMoment_startPc (s : State) : (passMoment s).startPc = s.startPc := rfl
@[simp] theorem passMoment_sequence (s : State) : (passMoment s).sequence = s.sequence := rfl
@[simp] theorem passMoment_checksum (s : State) : (passMoment s).checksum = s.checksum := rfl
@[simp] theorem passMoment_phase (s : State) : (passMoment s).phase = s.phase := rfl
@[simp] theorem passMoment_fault (s : State) : (passMoment s).fault = s.fault := rfl
@[simp] theorem passMoment_out (s : State) : (passMoment s).out = s.out := rfl
@[simp] theorem passMoment_taken (s : State) : (passMoment s).taken = if outValid s && (pinsNow s).outReady then s.taken + 1 else s.taken := rfl
@[simp] theorem passMoment_pins (s : State) : (passMoment s).pins = s.pins.tail := rfl

/-! ### openRow: step 1 of an iteration (R102) -/

@[simp] theorem openRow_params (s : State) : (openRow s).params = s.params := by
  unfold openRow; split <;> rfl
@[simp] theorem openRow_prog (s : State) : (openRow s).prog = s.prog := by
  unfold openRow; split <;> rfl
@[simp] theorem openRow_len (s : State) : (openRow s).len = s.len := by
  unfold openRow; split <;> rfl
@[simp] theorem openRow_pc (s : State) : (openRow s).pc = s.pc := by
  unfold openRow; split <;> rfl
@[simp] theorem openRow_spaceLeft (s : State) : (openRow s).spaceLeft = s.spaceLeft := by
  unfold openRow; split <;> rfl
@[simp] theorem openRow_instLeft (s : State) : (openRow s).instLeft = s.instLeft := by
  unfold openRow; split <;> rfl
@[simp] theorem openRow_nStart (s : State) : (openRow s).nStart = if s.spaceLeft = 13 then min 13 s.instLeft else s.nStart := by
  unfold openRow; split <;> rfl
@[simp] theorem openRow_startPc (s : State) : (openRow s).startPc = if s.spaceLeft = 13 then s.pc else s.startPc := by
  unfold openRow; split <;> rfl
@[simp] theorem openRow_sequence (s : State) : (openRow s).sequence = s.sequence := by
  unfold openRow; split <;> rfl
@[simp] theorem openRow_checksum (s : State) : (openRow s).checksum = s.checksum := by
  unfold openRow; split <;> rfl
@[simp] theorem openRow_phase (s : State) : (openRow s).phase = s.phase := by
  unfold openRow; split <;> rfl
@[simp] theorem openRow_fault (s : State) : (openRow s).fault = s.fault := by
  unfold openRow; split <;> rfl
@[simp] theorem openRow_out (s : State) : (openRow s).out = s.out := by
  unfold openRow; split <;> rfl
@[simp] theorem openRow_taken (s : State) : (openRow s).taken = s.taken := by
  unfold openRow; split <;> rfl
@[simp] theorem openRow_pins (s : State) : (openRow s).pins = s.pins := by
  unfold openRow; split <;> rfl

end Sys2Proof.Machine
end

