-- ==== Sys2Proof/Laws/Memory.lean ====
section
/-! SUPPORT. The Program buffer: a read after a write, and that every operation keeps the canonical form
(spec/20_memory.md R32, R33). -/

namespace Sys2Proof.Machine

@[simp] theorem memGet_memSet_same (m : Memory) (a : Nat) (v : Byte) : memGet (memSet m a v) a = some v := by
  induction m with
  | nil => simp [memSet, memGet]
  | cons c m ih =>
    obtain ⟨k, b⟩ := c
    unfold memSet
    split
    · simp [memGet]
    · split
      · simp [memGet]
      · rename_i h1 h2
        simp [memGet, ih, Ne.symm h2]

theorem memGet_memSet_other (m : Memory) {a c : Nat} (v : Byte) (h : c ≠ a) : memGet (memSet m a v) c = memGet m c := by
  induction m with
  | nil => simp [memSet, memGet, Ne.symm h]
  | cons d m ih =>
    obtain ⟨k, b⟩ := d
    unfold memSet
    split
    · simp [memGet, Ne.symm h]
    · split
      · rename_i h2
        subst h2
        simp [memGet, Ne.symm h]
      · simp [memGet, ih]

/-- A byte with a value is listed. -/
theorem exists_mem_of_memGet {m : Memory} {a : Nat} {v : Byte} (h : memGet m a = some v) : ∃ c ∈ m, c.1 = a := by
  induction m with
  | nil => simp [memGet] at h
  | cons c m ih =>
    obtain ⟨k, b⟩ := c
    by_cases hka : k = a
    · exact ⟨(k, b), List.mem_cons_self, hka⟩
    · obtain ⟨c, hc, hca⟩ := ih (by simpa [memGet, hka] using h)
      exact ⟨c, List.mem_cons_of_mem _ hc, hca⟩

/-- Writing the value a byte already has changes nothing: the form is canonical. -/
theorem memSet_of_memGet {m : Memory} (h : m.wf) {a : Nat} {v : Byte} (hv : memGet m a = some v) : memSet m a v = m := by
  induction m with
  | nil => simp [memGet] at hv
  | cons c m ih =>
    obtain ⟨k, b⟩ := c
    have hk := List.pairwise_cons.1 h
    by_cases hka : k = a
    · subst hka
      have hb : b = v := by simpa [memGet] using hv
      simp [memSet, hb]
    · have hm : memGet m a = some v := by simpa [memGet, hka] using hv
      obtain ⟨c, hc, hca⟩ := exists_mem_of_memGet hm
      have hlt : k < a := hca ▸ hk.1 c hc
      have h1 : ¬ a < k := by omega
      simp [memSet, h1, Ne.symm hka, ih hk.2 hm]

theorem mem_memSet {m : Memory} {a : Nat} {v : Byte} {c : Host.Cell} (h : c ∈ memSet m a v) : c = (a, v) ∨ c ∈ m := by
  induction m with
  | nil => simpa [memSet] using h
  | cons d m ih =>
    obtain ⟨k, b⟩ := d
    unfold memSet at h
    split at h
    · simpa using h
    · split at h
      · rcases List.mem_cons.1 h with h | h
        · exact .inl h
        · exact .inr (List.mem_cons_of_mem _ h)
      · rcases List.mem_cons.1 h with h | h
        · exact .inr (h ▸ List.mem_cons_self)
        · rcases ih h with h | h
          · exact .inl h
          · exact .inr (List.mem_cons_of_mem _ h)

theorem memSet_wf {m : Memory} (h : m.wf) (a : Nat) (v : Byte) : (memSet m a v).wf := by
  induction m with
  | nil => simp [memSet, Memory.wf]
  | cons d m ih =>
    obtain ⟨k, b⟩ := d
    have hk := List.pairwise_cons.1 h
    unfold memSet
    split
    · rename_i hak
      refine List.pairwise_cons.2 ⟨fun c hc => ?_, h⟩
      rcases List.mem_cons.1 hc with rfl | hc
      · exact hak
      · exact Nat.lt_trans hak (hk.1 c hc)
    · split
      · rename_i hak
        subst hak
        exact List.pairwise_cons.2 ⟨hk.1, hk.2⟩
      · rename_i h1 h2
        refine List.pairwise_cons.2 ⟨fun c hc => ?_, ih hk.2⟩
        rcases mem_memSet hc with rfl | hc
        · show k < a
          omega
        · exact hk.1 c hc

theorem memSetRange_wf {m : Memory} (h : m.wf) (a : Nat) (bs : List Byte) : (memSetRange m a bs).wf := by
  induction bs generalizing m a with
  | nil => exact h
  | cons b bs ih => exact ih (memSet_wf h a b) (a + 1)

theorem reset_memory_wf : State.reset.prog.wf := List.Pairwise.nil

/-- Everything `MemWrite` does when the address exists. -/
theorem memWrite_ok {a : Nat} {v : Byte} {s t : State} (h : memWrite a v s = .ok t) :
    a < s.params.bufBytes ∧ t = { s with prog := memSet s.prog a v } := by
  unfold memWrite at h
  split at h
  · exact ⟨‹_›, (Except.ok.inj h).symm⟩
  · cases h

theorem memWrite_wf {a : Nat} {v : Byte} {s t : State} (h : memWrite a v s = .ok t) (hs : s.prog.wf) : t.prog.wf := by
  obtain ⟨-, rfl⟩ := memWrite_ok h
  exact memSet_wf hs a v

/-- Everything the three writes of the normaliser do. -/
theorem memWrite3_ok {a : Nat} {v0 v1 v2 : Byte} {s t : State} (h : memWrite3 a v0 v1 v2 s = .ok t) :
    a + 2 < s.params.bufBytes ∧
      t = { s with prog := memSet (memSet (memSet s.prog a v0) (a + 1) v1) (a + 2) v2 } := by
  unfold memWrite3 at h
  split at h
  · cases h
  · rename_i s1 h1
    obtain ⟨-, rfl⟩ := memWrite_ok h1
    split at h
    · cases h
    · rename_i s2 h2
      obtain ⟨-, rfl⟩ := memWrite_ok h2
      exact memWrite_ok h

/-- When the three addresses exist the writes happen. -/
theorem memWrite3_of_lt {a : Nat} (v0 v1 v2 : Byte) {s : State} (h : a + 2 < s.params.bufBytes) :
    memWrite3 a v0 v1 v2 s =
      .ok { s with prog := memSet (memSet (memSet s.prog a v0) (a + 1) v1) (a + 2) v2 } := by
  have h0 : a < s.params.bufBytes := by omega
  have h1 : a + 1 < s.params.bufBytes := by omega
  simp [memWrite3, memWrite, h, h0, h1]

theorem memWrite3_wf {a : Nat} {v0 v1 v2 : Byte} {s t : State} (h : memWrite3 a v0 v1 v2 s = .ok t) (hs : s.prog.wf) :
    t.prog.wf := by
  obtain ⟨-, rfl⟩ := memWrite3_ok h
  exact memSet_wf (memSet_wf (memSet_wf hs _ _) _ _) _ _

theorem normalise_wf {s t : State} (h : normalise s = .ok t) (hs : s.prog.wf) : t.prog.wf := by
  unfold normalise at h
  split at h
  · cases h
  · exact memWrite3_wf h hs
  · unfold appendTail at h
    split at h
    · cases h
    · rename_i u hu
      have := memWrite3_wf hu hs
      cases h
      exact this

theorem withFetchWord_wf {s : State} (hs : s.prog.wf) (nbits w : Nat) : (s.withFetchWord nbits w).prog.wf :=
  memSetRange_wf hs _ _

/-! ### MemRead (R32) -/

theorem memRead_ok_iff {s : State} {a : Nat} {b : Byte} :
    memRead s a = .ok b ↔ a < s.len ∧ memGet s.prog a = some b := by
  unfold memRead
  split
  · simp; omega
  · split
    · rename_i h1 _ h2
      simp [h2]; omega
    · rename_i h1 h2
      simp [h2]

theorem memRead_malformedTail_iff {s : State} {a : Nat} : memRead s a = .error .malformedTail ↔ s.len ≤ a := by
  unfold memRead
  split
  · simp; assumption
  · split <;> simp <;> omega

theorem memRead_noValue_iff {s : State} {a c : Nat} :
    memRead s a = .error (.noValue c) ↔ a < s.len ∧ memGet s.prog a = none ∧ c = a := by
  unfold memRead
  split
  · simp; omega
  · split
    · rename_i h2
      simp [h2]
    · rename_i h1 h2
      simp only [Except.error.injEq, Reject.noValue.injEq, h2, true_and]
      constructor
      · intro h; exact ⟨by omega, h.symm⟩
      · intro h; exact h.2.symm

/-- A reader read over a range: it succeeds exactly when each byte reads. -/
theorem readRange_ok_iff {read : Nat → Except Reject Byte} {n a : Nat} {bs : List Byte} :
    readRange read n a = .ok bs ↔ bs.length = n ∧ ∀ k (h : k < bs.length), read (a + k) = .ok bs[k] := by
  induction n generalizing a bs with
  | zero =>
    simp only [readRange, Except.ok.injEq]
    constructor
    · rintro rfl
      exact ⟨rfl, fun k h => absurd h (by simp)⟩
    · rintro ⟨h, -⟩
      exact (List.length_eq_zero_iff.1 h).symm
  | succ n ih =>
    unfold readRange
    constructor
    · intro h
      split at h
      · cases h
      · rename_i b hb
        split at h
        · cases h
        · rename_i cs hcs
          obtain ⟨hl, hk⟩ := ih.1 hcs
          cases h
          refine ⟨by simp [hl], fun k h => ?_⟩
          cases k with
          | zero => simpa using hb
          | succ k => simpa [Nat.add_assoc, Nat.add_comm 1 k] using hk k (by simpa using h)
    · rintro ⟨hl, hk⟩
      cases bs with
      | nil => simp at hl
      | cons b bs =>
        have h0 : read a = .ok b := hk 0 (by simp)
        have ht : readRange read n (a + 1) = .ok bs := ih.2 ⟨by simpa using hl, fun k h => by
          have := hk (k + 1) (by simpa using h)
          simpa [Nat.add_assoc, Nat.add_comm 1 k] using this⟩
        simp [h0, ht]

/-- A range that does not read stops on one of its bytes. -/
theorem readRange_error {read : Nat → Except Reject Byte} {n a : Nat} {e : Reject}
    (h : readRange read n a = .error e) : ∃ k, k < n ∧ read (a + k) = .error e := by
  induction n generalizing a with
  | zero => simp [readRange] at h
  | succ n ih =>
    unfold readRange at h
    split at h
    · rename_i e' he
      cases h
      exact ⟨0, by omega, by simpa using he⟩
    · split at h
      · rename_i e' he
        cases h
        obtain ⟨k, hk, hr⟩ := ih he
        exact ⟨k + 1, by omega, by simpa [Nat.add_assoc, Nat.add_comm 1 k] using hr⟩
      · cases h

end Sys2Proof.Machine
end

