-- ==== Sys2Proof/Laws/Packer.lean ====
section
/-! SUPPORT. What each shared operation of the packer, the emitter and the host can do, said once (spec/42_row_packer.md
R100, spec/44_row_emitter.md R130, spec/45_host_operations.md R142, R143), for proofs to cite instead of unfolding. -/

namespace Sys2Proof.Machine

/-- Every instruction's meaning is the `STEP` of an instruction of its length. -/
theorem exec_eq_packInstr (i : Instr) (s : State) : exec i s = packInstr i.length s := by
  cases i <;> rfl

/-- `rejected` takes the fault or stops on a byte with no value. -/
theorem rejected_next {e : Reject} {s t : State} (h : rejected e s = .next t) :
    e = .malformedTail ∧ t = raise .malformedTail s := by
  cases e with
  | malformedTail => exact ⟨rfl, (Host.Outcome.next.inj h).symm⟩
  | noValue a => cases h

theorem emitRow_ok {start p ns ne : Nat} {s t : State} (h : emitRow start p ns ne s = .ok t) :
    ∃ payload, readRange (memRead s) p start = .ok payload ∧ t = putRow (makeRow s payload ns ne) s := by
  unfold emitRow at h
  split at h
  · cases h
  · rename_i payload hp
    exact ⟨payload, hp, (Except.ok.inj h).symm⟩

/-- Step 4: an open row stays open; a full one is put out and the next begun. -/
theorem closeRow_ok {fit : Nat} {s t : State} (h : closeRow fit s = .ok t) :
    (s.spaceLeft ≠ 0 ∧ t = s) ∨
    (s.spaceLeft = 0 ∧ ∃ payload, readRange (memRead s) 13 s.startPc = .ok payload ∧
      t = nextRow (putRow (makeRow s payload s.nStart (nEndOf fit s)) s)) := by
  unfold closeRow at h
  split at h
  · split at h
    · cases h
    · rename_i u hu
      obtain ⟨payload, hp, rfl⟩ := emitRow_ok hu
      exact .inr ⟨‹_›, payload, hp, (Except.ok.inj h).symm⟩
  · exact .inl ⟨‹_›, (Except.ok.inj h).symm⟩

/-- Steps 3 and 4: bytes are placed; then either the row stays open, or it is put out, or the `STEP` faults whole. -/
theorem placeAndClose_next {before s t : State} (h : placeAndClose before s = .next t) :
    t = raise .malformedTail before ∨
    ((place s).spaceLeft ≠ 0 ∧ t = place s) ∨
    ((place s).spaceLeft = 0 ∧ ∃ payload, readRange (memRead (place s)) 13 s.startPc = .ok payload ∧
      t = nextRow (putRow (makeRow (place s) payload s.nStart (nEndOf (bytesFit s) (place s))) (place s))) := by
  unfold placeAndClose at h
  split at h
  · exact .inl (rejected_next h).2
  · rename_i u hu
    cases h
    rcases closeRow_ok hu with h | ⟨h, payload, hp, rfl⟩
    · exact .inr (.inl h)
    · exact .inr (.inr ⟨h, payload, hp, rfl⟩)

/-- A next state of an instruction's `STEP`: the overrun fault, the instruction resolved, or the one in progress gone on
with. -/
theorem packInstr_next {n : Nat} {s t : State} (h : packInstr n s = .next t) :
    s.phase = .pack ∧
    ((s.instLeft = 0 ∧ s.len < s.pc + n ∧ t = raise .malformedTail s) ∨
     (s.instLeft = 0 ∧ s.pc + n ≤ s.len ∧ placeAndClose s { openRow s with instLeft := n } = .next t) ∨
     (s.instLeft ≠ 0 ∧ continueInstr s = .next t)) := by
  unfold packInstr at h
  split at h
  · refine ⟨‹_›, ?_⟩
    split at h
    · split at h
      · exact .inl ⟨‹_›, ‹_›, (Host.Outcome.next.inj h).symm⟩
      · exact .inr (.inl ⟨‹_›, by omega, h⟩)
    · exact .inr (.inr ⟨‹_›, h⟩)
  · cases h

/-- A next state of the final flush. -/
theorem flush_next {s t : State} (h : flush s = .next t) :
    t = raise .malformedTail s ∨
    (13 ≤ s.spaceLeft ∧ t = { s with phase := .done }) ∨
    (s.spaceLeft < 13 ∧ ∃ payload, readRange (memRead s) (13 - s.spaceLeft) s.startPc = .ok payload ∧
      t = { putRow (makeRow s payload s.nStart 0) s with phase := .done }) := by
  unfold flush at h
  split at h
  · split at h
    · exact .inl (rejected_next h).2
    · rename_i u hu
      obtain ⟨payload, hp, rfl⟩ := emitRow_ok hu
      exact .inr (.inr ⟨‹_›, payload, hp, (Host.Outcome.next.inj h).symm⟩)
  · exact .inr (.inl ⟨by omega, (Host.Outcome.next.inj h).symm⟩)

/-- A next state of `STEP`. -/
theorem packStep_next {s t : State} (h : packStep s = .next t) :
    (s.pc < s.len ∧ s.instLeft = 0 ∧ fetch s = .error .malformedTail ∧ t = raise .malformedTail s) ∨
    (s.pc < s.len ∧ s.instLeft = 0 ∧ ∃ i, fetch s = .ok i ∧ exec i s = .next t) ∨
    (s.pc < s.len ∧ s.instLeft ≠ 0 ∧ continueInstr s = .next t) ∨
    (s.len ≤ s.pc ∧ flush s = .next t) := by
  unfold packStep at h
  split at h
  · split at h
    · split at h
      · rename_i e he
        obtain ⟨rfl, ht⟩ := rejected_next h
        exact .inl ⟨‹_›, ‹_›, he, ht⟩
      · rename_i i hi
        exact .inr (.inl ⟨‹_›, ‹_›, i, hi, h⟩)
    · exact .inr (.inr (.inl ⟨‹_›, ‹_›, h⟩))
  · exact .inr (.inr (.inr ⟨by omega, h⟩))

/-- A next state of `PUSH`. -/
theorem push_next {b : Byte} {s t : State} (h : push b s = .next t) :
    s.phase = .load ∧
    ((s.len < s.params.cap ∧ t = { s with prog := memSet s.prog s.len b, len := s.len + 1 }) ∨
     (s.params.cap ≤ s.len ∧ s.params.onOverflow = .fault ∧ t = raise .capacityExceeded s) ∨
     (s.params.cap ≤ s.len ∧ s.params.onOverflow = .truncate ∧ t = s)) := by
  unfold push at h
  split at h
  · refine ⟨‹_›, ?_⟩
    split at h
    · split at h
      · cases h
      · rename_i u hu
        obtain ⟨-, rfl⟩ := memWrite_ok hu
        exact .inl ⟨‹_›, (Host.Outcome.next.inj h).symm⟩
    · split at h
      · exact .inr (.inl ⟨by omega, ‹_›, (Host.Outcome.next.inj h).symm⟩)
      · exact .inr (.inr ⟨by omega, ‹_›, (Host.Outcome.next.inj h).symm⟩)
  · cases h

/-- What the normaliser does when it does not stop the model. -/
theorem normalise_ok {s t : State} (h : normalise s = .ok t) :
    (endsInTerminator s = .ok true ∧ overwriteTail s = .ok t) ∨
    (endsInTerminator s = .ok false ∧ appendTail s = .ok t) := by
  unfold normalise at h
  split at h
  · cases h
  · exact .inl ⟨‹_›, h⟩
  · exact .inr ⟨‹_›, h⟩

/-- A next state of `FINISH`. -/
theorem finish_next {s t : State} (h : finish s = .next t) :
    s.phase = .load ∧ ∃ u, normalise s = .ok u ∧ t = { u with phase := .pack } := by
  unfold finish at h
  split at h
  · split at h
    · cases h
    · rename_i u hu
      exact ⟨‹_›, u, hu, (Host.Outcome.next.inj h).symm⟩
  · cases h

/-- A next state of a moment in which no operation is enabled. -/
theorem noOperation_next {s t : State} (h : noOperation s = .next t) : s.pins ≠ [] ∧ t = passMoment s := by
  unfold noOperation at h
  split at h
  · cases h
  · rename_i p ps hp
    exact ⟨by simp [hp], (Host.Outcome.next.inj h).symm⟩

/-- A next state of one moment of LBRE: `RESET`, an accepted token, a `STEP`, or nothing but the host's side. -/
theorem step_next {s t : State} (h : step s = .next t) :
    ((pinsNow s).rst = true ∧ t = reset (passMoment s)) ∨
    ((pinsNow s).rst = false ∧ s.phase = .load ∧ (pinsNow s).inValid = true ∧
      acceptToken (pinsNow s) (passMoment s) = .next t) ∨
    ((pinsNow s).rst = false ∧ s.phase = .pack ∧ packStep (passMoment s) = .next t) ∨
    ((pinsNow s).rst = false ∧ s.phase ≠ .pack ∧ s.pins ≠ [] ∧ t = passMoment s) := by
  unfold step sequencer at h
  split at h
  · exact .inl ⟨‹_›, (Host.Outcome.next.inj h).symm⟩
  · rename_i hr
    have hr : (pinsNow s).rst = false := by simpa using hr
    split at h
    · rename_i hp
      split at h
      · exact .inr (.inl ⟨hr, hp, ‹_›, h⟩)
      · exact .inr (.inr (.inr ⟨hr, by simp [hp], noOperation_next h⟩))
    · exact .inr (.inr (.inl ⟨hr, ‹_›, h⟩))
    · rename_i hp
      exact .inr (.inr (.inr ⟨hr, by simp [hp], noOperation_next h⟩))
    · rename_i hp
      exact .inr (.inr (.inr ⟨hr, by simp [hp], noOperation_next h⟩))

/-- The host's side of a moment changes nothing a fetch reads. -/
@[simp] theorem fetch_passMoment (s : State) : fetch (passMoment s) = fetch s := rfl

/-- The host's side of a moment changes no read of the Program. -/
@[simp] theorem memRead_passMoment (s : State) (a : Nat) : memRead (passMoment s) a = memRead s a := rfl

end Sys2Proof.Machine
end

