-- ==== Sys2Proof/Laws/PerInstr.lean ====
section
/-! SUPPORT. Statements about every instruction as syntax, one lemma per constructor. -/

namespace Sys2Proof.Laws

/-- The encoding of a well-formed instruction has as many bytes as its class's rule says (30_encoding.md R46). -/
def EncodeLength.Statement (i : Instr) : Prop := ∀ runMax, i.wf runMax = true → (encode i).length = i.length

theorem EncodeLength.one0 (x : BitVec 4) : EncodeLength.Statement (.one0 x) := fun _ _ => rfl
theorem EncodeLength.digits (op : Byte) (run : List Byte) : EncodeLength.Statement (.digits op run) := fun _ _ => by
  simp [encode, Instr.length, Nat.add_comm]
theorem EncodeLength.alpha (op b1 : Byte) (body : List Byte) : EncodeLength.Statement (.alpha op b1 body) := fun _ h => by
  simp only [Instr.wf, Bool.and_eq_true, decide_eq_true_eq] at h
  simp [encode, Instr.length, alphaLength, toNat_loNibble, h.2]; omega
theorem EncodeLength.one2 (x : BitVec 4) : EncodeLength.Statement (.one2 x) := fun _ _ => rfl
theorem EncodeLength.one3 (x : BitVec 4) : EncodeLength.Statement (.one3 x) := fun _ _ => rfl
theorem EncodeLength.one4 (x : BitVec 4) : EncodeLength.Statement (.one4 x) := fun _ _ => rfl
theorem EncodeLength.one5 (x : BitVec 4) : EncodeLength.Statement (.one5 x) := fun _ _ => rfl
theorem EncodeLength.one6 (x : BitVec 4) : EncodeLength.Statement (.one6 x) := fun _ _ => rfl
theorem EncodeLength.one7 (x : BitVec 4) : EncodeLength.Statement (.one7 x) := fun _ _ => rfl
theorem EncodeLength.one8 (x : BitVec 4) : EncodeLength.Statement (.one8 x) := fun _ _ => rfl
theorem EncodeLength.two9 (x : BitVec 4) (b1 : Byte) : EncodeLength.Statement (.two9 x b1) := fun _ _ => rfl
theorem EncodeLength.twoA (x : BitVec 4) (b1 : Byte) : EncodeLength.Statement (.twoA x b1) := fun _ _ => rfl
theorem EncodeLength.twoB (x : BitVec 4) (b1 : Byte) : EncodeLength.Statement (.twoB x b1) := fun _ _ => rfl
theorem EncodeLength.cshort (x : BitVec 1) (b1 : Byte) : EncodeLength.Statement (.cshort x b1) := fun _ _ => rfl
theorem EncodeLength.glabel (x : BitVec 4) (b1 b2 : Byte) (body : List Byte) :
    EncodeLength.Statement (.glabel x b1 b2 body) := fun _ h => by
  simp only [Instr.wf, Bool.and_eq_true, decide_eq_true_eq] at h
  simp [encode, Instr.length, glabelLength, toNat_loNibble, h.2]; omega
theorem EncodeLength.endMark (x : BitVec 4) (b1 b2 : Byte) : EncodeLength.Statement (.endMark x b1 b2) := fun _ _ => rfl
theorem EncodeLength.threeD (x : BitVec 4) (b1 b2 : Byte) : EncodeLength.Statement (.threeD x b1 b2) := fun _ _ => rfl
theorem EncodeLength.threeE (x : BitVec 4) (b1 b2 : Byte) : EncodeLength.Statement (.threeE x b1 b2) := fun _ _ => rfl
theorem EncodeLength.text (n : BitVec 4) (body : List Byte) : EncodeLength.Statement (.text n body) := fun _ h => by
  simp only [Instr.wf, decide_eq_true_eq] at h
  simp [encode, Instr.length, textLength, h, Nat.add_comm]

end Sys2Proof.Laws
end

