-- ==== Sys2Proof/Tests/Slice0.lean ====
section
/-! SUPPORT. The model's own tests. Every expected value is written from spec/: the encodings of 30_encoding.md and
41_length_decoder.md, the vectors V<n> and programs P<n> of 95_test_vectors.md. The witnesses at the end show, for every
statement with hypotheses, a state and operands that meet them all. -/

namespace Sys2Proof.Tests

open Sys2Proof.Machine

/-! ### Ill-formed instructions are refused, one for each check -/

theorem test_wf_digits_opcode : (Instr.digits 0x1D#8 []).wf 0x1C#8 = false := by decide
theorem test_wf_digits_run : (Instr.digits 0x10#8 [0x11#8, 0x1D#8]).wf 0x1C#8 = false := by decide
theorem test_wf_digits_run_other_reading : (Instr.digits 0x10#8 [0x11#8, 0x1D#8]).wf 0x1D#8 = true := by decide
theorem test_wf_alpha_opcode : (Instr.alpha 0x1C#8 0xF0#8 []).wf 0x1C#8 = false := by decide
theorem test_wf_alpha_body : (Instr.alpha 0x1D#8 0xF2#8 [0x41#8]).wf 0x1C#8 = false := by decide
theorem test_wf_glabel_opcode : (Instr.glabel 0xE#4 0x00#8 0x80#8 []).wf 0x1C#8 = false := by decide
theorem test_wf_glabel_selector : (Instr.glabel 0x0#4 0x00#8 0x01#8 [0x41#8]).wf 0x1C#8 = false := by decide
theorem test_wf_glabel_body : (Instr.glabel 0x0#4 0x00#8 0x81#8 []).wf 0x1C#8 = false := by decide
theorem test_wf_end_opcode : (Instr.endMark 0xF#4 0x00#8 0x2F#8).wf 0x1C#8 = false := by decide
theorem test_wf_end_selector : (Instr.endMark 0x0#4 0x00#8 0x80#8).wf 0x1C#8 = false := by decide
theorem test_wf_text_body : (Instr.text 0x2#4 [0x41#8]).wf 0x1C#8 = false := by decide

/-! ### Decoding: words written out from R46, R48 and the examples of R71 to R89 -/

theorem test_decode_one_byte :
    decode 0x1C#8 [0x0F#8] = .ok (.one0 0xF#4, []) ∧ decode 0x1C#8 [0x2F#8] = .ok (.one2 0xF#4, []) ∧
    decode 0x1C#8 [0x35#8] = .ok (.one3 0x5#4, []) ∧ decode 0x1C#8 [0x40#8] = .ok (.one4 0x0#4, []) ∧
    decode 0x1C#8 [0x5A#8] = .ok (.one5 0xA#4, []) ∧ decode 0x1C#8 [0x6F#8] = .ok (.one6 0xF#4, []) ∧
    decode 0x1C#8 [0x75#8, 0x01#8] = .ok (.one7 0x5#4, [0x01#8]) ∧ decode 0x1C#8 [0x85#8] = .ok (.one8 0x5#4, []) := by
  decide

theorem test_decode_two_bytes :
    decode 0x1C#8 [0x91#8, 0x75#8] = .ok (.two9 0x1#4 0x75#8, []) ∧
    decode 0x1C#8 [0xA7#8, 0x41#8] = .ok (.twoA 0x7#4 0x41#8, []) ∧
    decode 0x1C#8 [0xB3#8, 0x00#8] = .ok (.twoB 0x3#4 0x00#8, []) ∧
    decode 0x1C#8 [0xCE#8, 0x70#8] = .ok (.cshort 0x0#1 0x70#8, []) ∧
    decode 0x1C#8 [0xCE#8, 0xFF#8, 0xFF#8] = .ok (.cshort 0x0#1 0xFF#8, [0xFF#8]) := by
  decide

theorem test_decode_three_bytes :
    decode 0x1C#8 [0xC3#8, 0x45#8, 0x09#8] = .ok (.endMark 0x3#4 0x45#8 0x09#8, []) ∧
    decode 0x1C#8 [0xCD#8, 0xFF#8, 0x7F#8] = .ok (.endMark 0xD#4 0xFF#8 0x7F#8, []) ∧
    decode 0x1C#8 [0xD1#8, 0x00#8, 0x05#8] = .ok (.threeD 0x1#4 0x00#8 0x05#8, []) ∧
    decode 0x1C#8 [0xE0#8, 0x00#8, 0x7F#8] = .ok (.threeE 0x0#4 0x00#8 0x7F#8, []) := by
  decide

theorem test_decode_variable :
    decode 0x1C#8 [0x10#8, 0x10#8, 0x1C#8, 0x1D#8] = .ok (.digits 0x10#8 [0x10#8, 0x1C#8], [0x1D#8]) ∧
    decode 0x1D#8 [0x10#8, 0x10#8, 0x1C#8, 0x1D#8] = .error .malformedTail ∧
    decode 0x1C#8 [0x1D#8, 0xF2#8, 0x41#8, 0x42#8] = .ok (.alpha 0x1D#8 0xF2#8 [0x41#8, 0x42#8], []) ∧
    decode 0x1C#8 [0xC4#8, 0x00#8, 0xF1#8, 0x41#8] = .ok (.glabel 0x4#4 0x00#8 0xF1#8 [0x41#8], []) ∧
    decode 0x1C#8 [0xF1#8, 0x41#8] = .ok (.text 0x1#4 [0x41#8], []) ∧
    decode 0x1C#8 [0xC0#8, 0x00#8] = .error .malformedTail := by
  decide

/-- The table's window numbers `b0` highest (R59): row `TWO9`, then a `TEXT` of 15 bytes of zeros. -/
theorem test_decodeTableWord :
    decodeTableWord 24 0x917500 = some (.two9 0x1#4 0x75#8) ∧ decodeTableWord 24 0xC00000 = some (.endMark 0x0#4 0#8 0#8) ∧
    decodeTableWord 24 0xFF0000 = some (.text 0xF#4 (List.replicate 15 0#8)) := by
  decide

/-! ### The length decoder alone: 95_test_vectors.md 2.2 -/

/-- `InstLen(o)` on a plain buffer. -/
def lenOf (bs : List Byte) (o : Nat) : Except Reject Nat := instLen (listRead bs) 0x1C#8 bs.length o

theorem test_instLen_digits :
    lenOf [0x1C#8, 0x0F#8] 0 = .ok 1 ∧ lenOf [0x15#8, 0x1A#8, 0x13#8, 0x1B#8, 0x1C#8, 0x12#8, 0x00#8] 0 = .ok 6 ∧
    lenOf [0x11#8, 0x12#8, 0x20#8] 1 = .ok 1 ∧ lenOf [0x10#8, 0x10#8] 0 = .error .malformedTail := by
  decide

theorem test_instLen_lookahead :
    lenOf [0x1F#8, 0x0F#8] 0 = .ok 17 ∧ lenOf [0x1E#8, 0x7A#8] 0 = .ok 12 ∧ lenOf [0x1D#8] 0 = .error .malformedTail ∧
    lenOf [0xCD#8, 0x07#8, 0xFF#8] 0 = .ok 18 ∧ lenOf [0xC1#8, 0x23#8, 0x8A#8] 0 = .ok 13 ∧
    lenOf [0xCD#8, 0xFF#8, 0x7F#8] 0 = .ok 3 ∧ lenOf [0xC0#8, 0x00#8] 0 = .error .malformedTail := by
  decide

theorem test_instLen_no_lookahead :
    lenOf [0x90#8] 0 = .ok 2 ∧ lenOf [0xFF#8] 0 = .ok 16 ∧ lenOf [0xF7#8, 0xC0#8, 0x00#8, 0x2F#8] 0 = .ok 8 ∧
    lenOf [0xF0#8] 0 = .ok 1 := by
  decide

/-! ### The checksum: 95_test_vectors.md 2.5 -/

theorem test_csAdd :
    csAdd 0x00#8 0x10#8 = 0x10#8 ∧ csAdd 0xFF#8 0x00#8 = 0xFF#8 ∧ csAdd 0xFF#8 0x01#8 = 0x01#8 ∧
    csAdd 0xFF#8 0xFF#8 = 0xFF#8 ∧ csAdd 0xD1#8 0x2F#8 = 0x01#8 ∧ csAdd 0xD0#8 0x2F#8 = 0xFF#8 := by
  decide

/-! ### The normaliser: 95_test_vectors.md 2.1 -/

/-- V2, V4, V5, V7, V9, V10. -/
theorem test_normalised :
    normalised [] = [0xC0#8, 0x00#8, 0x2F#8] ∧
    normalised [0xC0#8, 0x00#8] = [0xC0#8, 0x00#8, 0xC0#8, 0x00#8, 0x2F#8] ∧
    normalised [0x01#8, 0xC3#8, 0x45#8, 0x09#8] = [0x01#8, 0xC0#8, 0x00#8, 0x2F#8] ∧
    normalised [0xC4#8, 0x00#8, 0xF1#8] = [0xC4#8, 0x00#8, 0xF1#8, 0xC0#8, 0x00#8, 0x2F#8] ∧
    normalised [0x40#8, 0xCE#8, 0x75#8, 0x41#8] = [0x40#8, 0xC0#8, 0x00#8, 0x2F#8] ∧
    normalised [0xF3#8, 0xC1#8, 0x41#8, 0x42#8] = [0xF3#8, 0xC0#8, 0x00#8, 0x2F#8] := by
  decide

/-! ### States for single steps -/

/-- A small instance. -/
def tParams : Params := { cap := 20, onOverflow := .fault, digitRunMax := 0x1C#8 }

/-- A state in phase `PACK` with this Program, nothing packed yet. -/
def packing (bs : List Byte) : State :=
  { State.reset with params := tParams, phase := .pack, prog := (List.range bs.length).zip bs, len := bs.length }

/-- A state in phase `LOAD` with these bytes pushed, and this token offered. -/
def loading (bs : List Byte) (p : PortIn) : State :=
  { State.reset with params := { tParams with cap := 4 }, prog := (List.range bs.length).zip bs, len := bs.length, pins := [p] }

/-- What a test reads of an outcome. -/
def seen (o : Host.Outcome State Fault Refusal) : Option (List Nat × Byte × Phase × FaultCode × List Byte) :=
  match o with
  | .next t =>
    some ([t.pc, t.spaceLeft, t.instLeft, t.nStart, t.startPc, t.sequence.toNat], t.checksum, t.phase, t.fault, t.out)
  | _ => none

/-- P1, step 1: `01`. -/
theorem test_step_P1_one0 :
    seen (step (packing [0x01#8, 0xC0#8, 0x00#8, 0x2F#8])) = some ([1, 12, 0, 0, 0, 0], 0x00#8, .pack, .none, []) := by
  decide

/-- P1, step 2: the `END`. -/
theorem test_step_P1_end :
    seen (step { packing [0x01#8, 0xC0#8, 0x00#8, 0x2F#8] with pc := 1, spaceLeft := 12 }) =
      some ([4, 9, 0, 0, 0, 0], 0x00#8, .pack, .none, []) := by
  decide

/-- P1, step 3: the final flush, DOC's own row. -/
theorem test_step_P1_flush :
    seen (step { packing [0x01#8, 0xC0#8, 0x00#8, 0x2F#8] with pc := 4, spaceLeft := 9 }) =
      some ([4, 9, 0, 0, 0, 0], 0x01#8, .done, .none, [0x06#8, 0x01#8, 0x10#8, 0x00#8, 0x01#8, 0xC0#8, 0x00#8, 0x2F#8]) := by
  decide

/-- P2, step 13: a `TWO9` across the row boundary, `n_end = 1`. -/
theorem test_step_P2_straddle :
    seen (step { packing (List.replicate 12 0x40#8 ++ [0x91#8, 0x75#8, 0xC0#8, 0x00#8, 0x2F#8]) with pc := 12, spaceLeft := 1 }) =
      some ([13, 13, 1, 0, 0, 1], 0xA5#8, .pack, .none,
        [0x0F#8, 0xA5#8, 0x10#8, 0x01#8] ++ List.replicate 12 0x40#8 ++ [0x91#8]) := by
  decide

/-- P3, step 15: the third row of an 18-byte `GLABEL` opens with `n_start = 4`. -/
theorem test_step_P3_continue :
    seen (step { packing (List.replicate 36 0x40#8) with pc := 26, instLeft := 4, nStart := 13, startPc := 13, sequence := 2#4, checksum := 0xC8#8 }) =
      some ([30, 9, 0, 4, 26, 2], 0xC8#8, .pack, .none, []) := by
  decide

/-- V11, step 12: an instruction that ends with the row has `n_end = 0`. -/
theorem test_step_V11_tie_break :
    seen (step { packing (List.replicate 11 0x40#8 ++ [0x91#8, 0x75#8, 0xC0#8, 0x00#8, 0x2F#8]) with pc := 11, spaceLeft := 2 }) =
      some ([13, 13, 0, 0, 0, 1], 0xD9#8, .pack, .none,
        [0x0F#8, 0xD9#8, 0x10#8, 0x00#8] ++ List.replicate 11 0x40#8 ++ [0x91#8, 0x75#8]) := by
  decide

/-- R102, R105, R110 c, e by hand (log 37): a 16-byte `TEXT` that opens row 0 fills it, with `n_start = 0` and
`n_end = 13`. -/
theorem test_step_row_opened_by_long_instruction :
    seen (step (packing (0xFF#8 :: List.replicate 15 0x41#8 ++ [0xC0#8, 0x00#8, 0x2F#8]))) =
      some ([13, 13, 3, 0, 0, 1], 0x2C#8, .pack, .none,
        [0x0F#8, 0x2C#8, 0x10#8, 0x0D#8, 0xFF#8] ++ List.replicate 12 0x41#8) := by
  decide

/-- V19: `F5 41` overruns; the whole `STEP` is undone. -/
theorem test_step_V19_malformedTail :
    seen (step (packing [0xF5#8, 0x41#8, 0xC0#8, 0x00#8, 0x2F#8])) =
      some ([0, 13, 0, 0, 0, 0], 0x00#8, .fault, .malformedTail, []) := by
  decide

/-- V17: `F4 41` swallows the terminator and ends exactly at `L`. -/
theorem test_step_V17_ends_at_L :
    seen (step (packing [0xF4#8, 0x41#8, 0xC0#8, 0x00#8, 0x2F#8])) = some ([5, 8, 0, 0, 0, 0], 0x00#8, .pack, .none, []) := by
  decide

/-- V18: the push that finds `L = CAP = 4`. -/
theorem test_step_V18_capacity :
    seen (step (loading (List.replicate 4 0x40#8) (pushPins 0x40#8))) =
      some ([0, 13, 0, 0, 0, 0], 0x00#8, .fault, .capacityExceeded, []) := by
  decide

/-- The Program of an outcome's state, `L` of it. -/
def program (o : Host.Outcome State Fault Refusal) : Option (Nat × Memory) :=
  match o with
  | .next t => some (t.len, t.prog)
  | _ => none

/-- V18c, V5: `FINISH` appends, or overwrites. -/
theorem test_step_finish :
    program (step (loading (List.replicate 4 0x40#8) finishPins)) =
      some (7, [(0, 0x40#8), (1, 0x40#8), (2, 0x40#8), (3, 0x40#8), (4, 0xC0#8), (5, 0x00#8), (6, 0x2F#8)]) ∧
    program (step (loading [0x01#8, 0xC3#8, 0x45#8, 0x09#8] finishPins)) =
      some (4, [(0, 0x01#8), (1, 0xC0#8), (2, 0x00#8), (3, 0x2F#8)]) := by
  decide

/-- A push below `CAP` stores the byte at `L`. -/
theorem test_step_push :
    program (step (loading [0x01#8] (pushPins 0x99#8))) = some (2, [(0, 0x01#8), (1, 0x99#8)]) := by
  decide

/-- `rst` wins in phase `FAULT` (60_exceptions.md R156, R159). -/
theorem test_step_reset :
    seen (step { packing [0x40#8] with phase := .fault, fault := .malformedTail, pc := 1, out := [0x01#8], pins := [resetPins] }) =
      some ([0, 13, 0, 0, 0, 0], 0x00#8, .load, .none, []) := by
  decide

/-- A placed instruction is the one the next step runs: an 18-byte `GLABEL` (V14) leaves 5 bytes owed. -/
theorem test_withFetchWord :
    (seen (step (State.reset.withFetchWord 24 0xCD07FF))).map Prod.fst = some [13, 13, 5, 0, 0, 1] := by
  decide

/-! ### Witnesses: for every statement with hypotheses, a state and operands that meet them all -/

/-- DOC's own Program (V1). -/
def docBytes : List Byte := [0x01#8, 0xC0#8, 0x00#8, 0x2F#8]

theorem docBytes_holds : Holds (packing docBytes) docBytes := ⟨rfl, by decide⟩

/-- What `packing` starts from when the Program is in the normal form. -/
theorem witness_inv_pack : Inv (packing docBytes) :=
  ⟨by decide, by decide, by decide, docBytes, docBytes_holds,
    show _ ∧ _ ∧ _ from ⟨rfl, ⟨⟨[0x01#8], rfl⟩, by decide⟩, [],
      ⟨rfl, trivial, trivial, rfl, by simp⟩, by simp, rfl, rfl, by decide, by decide, by decide, by decide, by decide,
      fun _ => rfl, by decide⟩⟩

/-- The state at the end of P1. -/
def docDone : State :=
  { packing docBytes with
    pc := 4, spaceLeft := 9, checksum := 0x01#8, phase := .done,
    out := [0x06#8, 0x01#8, 0x10#8, 0x00#8] ++ docBytes }

theorem witness_inv_done : Inv docDone ∧ docDone.phase = .done :=
  ⟨⟨by decide, by decide, by decide, docBytes, ⟨rfl, by decide⟩,
    show _ ∧ _ ∧ _ from ⟨rfl, ⟨⟨[0x01#8], rfl⟩, by decide⟩,
      [{ checksum := 0x01#8, sequence := 0#4, nStart := 0, nEnd := 0, payload := docBytes }],
      ⟨by decide, ⟨rfl, trivial⟩, ⟨by decide, trivial⟩, rfl, by simp⟩, by decide, by decide, by simp, rfl, rfl, by decide,
      by decide, by decide, by decide⟩⟩, rfl⟩

theorem witness_DecodeEncodeRoundTrip :
    (Instr.digits 0x15#8 [0x1A#8, 0x1C#8]).wf 0x1C#8 = true ∧ endedBy 0x1C#8 (.digits 0x15#8 [0x1A#8, 0x1C#8]) [0x1D#8] ∧
    (Instr.glabel 0xD#4 0xFF#8 0x80#8 []).wf 0x1C#8 = true ∧ endedBy 0x1C#8 (.glabel 0xD#4 0xFF#8 0x80#8 []) [] :=
  ⟨by decide, ⟨0x1D#8, [], rfl, by decide⟩, by decide, trivial⟩

theorem witness_DecodedInstructionReencodes :
    decode 0x1C#8 [0xF1#8, 0x41#8, 0x2F#8] = .ok (.text 0x1#4 [0x41#8], [0x2F#8]) := by decide

theorem witness_DecodedClassIsOpcodeMapClass :
    decode 0x1C#8 [0xC0#8, 0x00#8, 0x80#8] = .ok (.glabel 0x0#4 0x00#8 0x80#8 [], []) := by decide

theorem witness_InstLenOneByteClasses :
    memRead (packing [0x0F#8, 0x20#8, 0x8F#8]) 0 = .ok 0x0F#8 ∧ memRead (packing [0x0F#8, 0x20#8, 0x8F#8]) 1 = .ok 0x20#8 ∧
    memRead (packing [0x0F#8, 0x20#8, 0x8F#8]) 2 = .ok 0x8F#8 := by decide

theorem witness_InstLenByOpcodeByte :
    memRead (packing [0x90#8, 0xBF#8, 0xCE#8, 0xCF#8]) 0 = .ok 0x90#8 ∧
    memRead (packing [0x90#8, 0xBF#8, 0xCE#8, 0xCF#8]) 1 = .ok 0xBF#8 ∧
    memRead (packing [0x90#8, 0xBF#8, 0xCE#8, 0xCF#8]) 2 = .ok 0xCE#8 ∧
    memRead (packing [0x90#8, 0xBF#8, 0xCE#8, 0xCF#8]) 3 = .ok 0xCF#8 ∧
    memRead (packing [0xD0#8, 0xEF#8, 0xF0#8, 0xFF#8]) 0 = .ok 0xD0#8 ∧
    memRead (packing [0xD0#8, 0xEF#8, 0xF0#8, 0xFF#8]) 1 = .ok 0xEF#8 ∧
    memRead (packing [0xD0#8, 0xEF#8, 0xF0#8, 0xFF#8]) 2 = .ok 0xF0#8 ∧
    memRead (packing [0xD0#8, 0xEF#8, 0xF0#8, 0xFF#8]) 3 = .ok 0xFF#8 := by decide

/-- Each class with the byte it needs, and without it. -/
theorem witness_InstLenLookahead :
    (memRead (packing [0x1D#8, 0x0F#8]) 0 = .ok 0x1D#8 ∧ memRead (packing [0x1D#8, 0x0F#8]) 1 = .ok 0x0F#8) ∧
    (memRead (packing [0x1F#8]) 0 = .ok 0x1F#8 ∧ (packing [0x1F#8]).len ≤ 0 + 1) ∧
    (memRead (packing [0xC0#8, 0x00#8, 0x80#8]) 0 = .ok 0xC0#8 ∧ memRead (packing [0xC0#8, 0x00#8, 0x80#8]) 2 = .ok 0x80#8) ∧
    (memRead (packing [0xCD#8, 0x00#8, 0x7F#8]) 0 = .ok 0xCD#8 ∧ memRead (packing [0xCD#8, 0x00#8, 0x7F#8]) 2 = .ok 0x7F#8) ∧
    (memRead (packing [0xCD#8, 0x00#8]) 0 = .ok 0xCD#8 ∧ (packing [0xCD#8, 0x00#8]).len ≤ 0 + 2) := by decide

theorem witness_InstLenDigitsCountsRun :
    memRead (packing [0x10#8, 0x1C#8, 0x1D#8]) 0 = .ok 0x10#8 ∧
    (∀ j, j < 1 → ∃ c, memRead (packing [0x10#8, 0x1C#8, 0x1D#8]) (0 + 1 + j) = .ok c ∧ 0x0F < c.toNat ∧
      c.toNat ≤ (packing [0x10#8, 0x1C#8, 0x1D#8]).params.digitRunMax.toNat) ∧
    memRead (packing [0x10#8, 0x1C#8, 0x1D#8]) (0 + 1 + 1) = .ok 0x1D#8 ∧
    (packing [0x10#8, 0x1C#8, 0x1D#8]).params.digitRunMax.toNat < (0x1D#8).toNat :=
  ⟨by decide, fun j hj => by obtain rfl : j = 0 := (by omega); exact ⟨0x1C#8, by decide, by decide, by decide⟩, by decide, by decide⟩

theorem witness_InstLenDigitsRunToEnd :
    memRead (packing [0x10#8, 0x1C#8]) 0 = .ok 0x10#8 ∧
    ∀ a, 0 < a → a < (packing [0x10#8, 0x1C#8]).len → ∃ c, memRead (packing [0x10#8, 0x1C#8]) a = .ok c ∧ 0x0F < c.toNat ∧
      c.toNat ≤ (packing [0x10#8, 0x1C#8]).params.digitRunMax.toNat :=
  ⟨by decide, fun a h0 h => by
    obtain rfl : a = 1 := (by have : (packing [0x10#8, 0x1C#8]).len = 2 := rfl; omega)
    exact ⟨0x1C#8, by decide, by decide, by decide⟩⟩

theorem witness_InstLenBounds :
    progInstLen (packing [0xCD#8, 0x00#8, 0xFF#8]) 0 = .ok 18 ∧ progInstLen (packing [0x10#8, 0x00#8]) 0 = .ok 1 := by decide

theorem witness_LookaheadInBoundsWhenNormalised :
    (packing docBytes).params.wf ∧ Holds (packing docBytes) ([0x01#8] ++ Config.term) ∧ 0 < (packing docBytes).len :=
  ⟨.inl rfl, docBytes_holds, by decide⟩

theorem witness_InstLenMatchesDecodedInstruction : fetch (packing docBytes) = .ok (.one0 0x1#4) := by decide

/-- The hypotheses of the four statements of what an instruction does with room in the row, at an open row and at a new
one. -/
theorem witness_InstructionFits :
    ((packing docBytes).phase = .pack ∧ (packing docBytes).instLeft = 0 ∧ (packing docBytes).pc + 3 ≤ (packing docBytes).len ∧
      3 < (packing docBytes).spaceLeft) ∧
    (2 = 1 + [0x11#8].length ∧ 2 = 2 + (0xF0#8 : Byte).toNat % 16 ∧ 3 = 3 + (0x80#8 : Byte).toNat % 16 ∧
      1 = 1 + (0#4 : BitVec 4).toNat) := by decide

/-- A new row filled by a 16-byte `TEXT`, and an open row whose last byte is a one-byte instruction. -/
theorem witness_InstructionFillsRow :
    (Holds (packing (0xFF#8 :: List.replicate 15 0x41#8)) (0xFF#8 :: List.replicate 15 0x41#8) ∧
      (packing (0xFF#8 :: List.replicate 15 0x41#8)).spaceLeft = 13 ∧
      13 ≤ (Instr.text 0xF#4 (List.replicate 15 0x41#8)).length ∧
      0 + (Instr.text 0xF#4 (List.replicate 15 0x41#8)).length ≤ (packing (0xFF#8 :: List.replicate 15 0x41#8)).len) ∧
    (let s := { packing (List.replicate 13 0x40#8) with pc := 12, spaceLeft := 1 };
      Holds s (List.replicate 13 0x40#8) ∧ s.pc + (Instr.one4 0x0#4).length ≤ s.len ∧ 1 ≤ s.spaceLeft ∧
      s.spaceLeft ≤ (Instr.one4 0x0#4).length ∧ s.startPc + 13 = s.pc + s.spaceLeft) :=
  ⟨⟨⟨rfl, by decide⟩, by decide, by decide, by decide⟩, ⟨rfl, by decide⟩, by decide, by decide, by decide, by decide⟩

theorem witness_InstructionOverrunRaises :
    (packing [0xF5#8, 0x41#8]).phase = .pack ∧ (packing [0xF5#8, 0x41#8]).instLeft = 0 ∧
    (packing [0xF5#8, 0x41#8]).len < (packing [0xF5#8, 0x41#8]).pc + (Instr.text 0x5#4 []).length := by decide

theorem witness_InstructionNeedsPackPhase : docDone.phase ≠ .pack := by decide

theorem witness_InstructionFrame :
    exec (.one0 0x1#4) (packing docBytes) = .next { packing docBytes with pc := 1, spaceLeft := 12 } := rfl

theorem witness_StepInPackIsOneSTEP :
    (packing docBytes).phase = .pack ∧ (pinsNow { packing docBytes with pins := [pushPins 0x00#8] }).rst = false := by decide

theorem witness_StepRunsDecodedInstruction :
    (packing docBytes).phase = .pack ∧ (pinsNow (packing docBytes)).rst = false ∧ (packing docBytes).pc < (packing docBytes).len ∧
    (packing docBytes).instLeft = 0 ∧ fetch (packing docBytes) = .ok (.one0 0x1#4) := by decide

theorem witness_StepRunsEncodedBytes :
    (packing docBytes).phase = .pack ∧ (pinsNow (packing docBytes)).rst = false ∧ (packing docBytes).instLeft = 0 ∧
    Holds (packing docBytes) docBytes ∧ docBytes.drop (packing docBytes).pc = encode (.one0 0x1#4) ++ [0xC0#8, 0x00#8, 0x2F#8] ∧
    (Instr.one0 0x1#4).wf (packing docBytes).params.digitRunMax = true ∧
    endedBy (packing docBytes).params.digitRunMax (.one0 0x1#4) [0xC0#8, 0x00#8, 0x2F#8] :=
  ⟨by decide, by decide, by decide, docBytes_holds, by decide, by decide, trivial⟩

theorem witness_StepContinuesInstruction :
    let s := { packing (List.replicate 20 0x41#8) with instLeft := 12 }
    s.phase = .pack ∧ s.pins = [] ∧ s.pc < s.len ∧ 0 < s.instLeft ∧ s.instLeft < s.spaceLeft := by decide

theorem witness_StepPacksRowInsideInstruction :
    let s := { packing (List.replicate 20 0x41#8) with instLeft := 13 }
    s.phase = .pack ∧ s.pins = [] ∧ Holds s (List.replicate 20 0x41#8) ∧ s.spaceLeft = 13 ∧ 13 ≤ s.instLeft ∧
      s.pc + 13 ≤ s.len :=
  ⟨by decide, by decide, ⟨rfl, by decide⟩, by decide, by decide, by decide⟩

/-- An open row at the end, and a row boundary at the end. -/
theorem witness_FinalFlush :
    (let s := { packing docBytes with pc := 4, spaceLeft := 9 };
      s.phase = .pack ∧ s.pins = [] ∧ s.pc = s.len ∧ Holds s docBytes ∧ s.spaceLeft < 13 ∧
        s.startPc + (13 - s.spaceLeft) = s.len) ∧
    (let s := { packing (List.replicate 13 0x40#8) with pc := 13 };
      s.phase = .pack ∧ s.pins = [] ∧ s.pc = s.len ∧ s.spaceLeft = 13) :=
  ⟨⟨by decide, by decide, by decide, ⟨rfl, by decide⟩, by decide, by decide⟩, by decide⟩

/-- A length that overruns, and a lookahead that does. -/
theorem witness_MalformedTailUndoesStep :
    (progInstLen (packing [0xF5#8, 0x41#8]) 0 = .ok 6 ∧ (packing [0xF5#8, 0x41#8]).len < 0 + 6 ∧
      (pinsNow (packing [0xF5#8, 0x41#8])).rst = false) ∧
    progInstLen (packing [0x1D#8]) 0 = .error .malformedTail := by decide

theorem witness_ResetPutsRegisters : (pinsNow { docDone with pins := [resetPins] }).rst = true := by decide

/-- Below `CAP`, at `CAP` with either overflow rule, and outside `LOAD`. -/
theorem witness_PushLoadsOneByte :
    ((loading [0x01#8] finishPins).phase = .load ∧ (loading [0x01#8] finishPins).len < (loading [0x01#8] finishPins).params.cap) ∧
    ((loading (List.replicate 4 0x40#8) finishPins).params.cap ≤ (loading (List.replicate 4 0x40#8) finishPins).len ∧
      (loading (List.replicate 4 0x40#8) finishPins).params.onOverflow = .fault) ∧
    (let s := { loading (List.replicate 4 0x40#8) finishPins with params := { tParams with cap := 4, onOverflow := .truncate } };
      s.phase = .load ∧ s.params.cap ≤ s.len ∧ s.params.onOverflow = .truncate) ∧
    docDone.phase ≠ .load := by decide

/-- The overwrite branch, and the append branch with fewer than three bytes and with three. -/
theorem witness_FinishNormalisesTail :
    (let s := loading [0x01#8, 0xCF#8, 0x45#8, 0x7F#8] finishPins;
      s.phase = .load ∧ Holds s [0x01#8, 0xCF#8, 0x45#8, 0x7F#8] ∧ s.len ≤ s.params.cap ∧ 3 ≤ s.len ∧
        (0xCF#8 : Byte).toNat / 16 = 0xC ∧ (0x7F#8 : Byte).toNat < 0x80) ∧
    (let s := loading [0xC0#8, 0x00#8] finishPins;
      s.phase = .load ∧ Holds s [0xC0#8, 0x00#8] ∧ s.len ≤ s.params.cap ∧ s.len < 3) ∧
    (let s := loading [0xC4#8, 0x00#8, 0x80#8] finishPins;
      s.phase = .load ∧ Holds s [0xC4#8, 0x00#8, 0x80#8] ∧ s.len ≤ s.params.cap ∧ 0x80 ≤ (0x80#8 : Byte).toNat) :=
  ⟨⟨rfl, ⟨rfl, by decide⟩, by decide, by decide, by decide, by decide⟩, ⟨rfl, ⟨rfl, by decide⟩, by decide, by decide⟩,
    ⟨rfl, ⟨rfl, by decide⟩, by decide, by decide⟩⟩

/-- A Program in canonical form, at the storage's end; a first `Normalise()` that appends, and one that overwrites. -/
theorem witness_NormalisationIsIdempotent :
    (let s := { packing docBytes with params := { tParams with cap := 1 } };
      Holds s ([0x01#8] ++ Config.term) ∧ s.len ≤ s.params.bufBytes ∧ s.prog.wf) ∧
    (∃ t, normalise (loading [0xC0#8, 0x00#8] finishPins) = .ok t ∧ t.len = 5) ∧
    (∃ t, normalise (loading [0x01#8, 0xCF#8, 0x45#8, 0x7F#8] finishPins) = .ok t ∧ t.len = 4) :=
  ⟨⟨⟨rfl, by decide⟩, by decide, by decide⟩, ⟨_, rfl, rfl⟩, ⟨_, rfl, rfl⟩⟩

/-- Full to `CAP`, and empty. -/
theorem witness_NormaliseComputesNormalised :
    (let s := loading [0xC4#8, 0x00#8, 0x80#8, 0x40#8] finishPins;
      Holds s [0xC4#8, 0x00#8, 0x80#8, 0x40#8] ∧ s.len ≤ s.params.cap) ∧
    (Holds (loading [] finishPins) [] ∧ (loading [] finishPins).len ≤ (loading [] finishPins).params.cap) :=
  ⟨⟨⟨rfl, by decide⟩, by decide⟩, ⟨rfl, by decide⟩, by decide⟩

theorem witness_TokenAcceptedInLoad :
    (loading [] finishPins).phase = .load ∧ (pinsNow (loading [] finishPins)).rst = false ∧
    (pinsNow (loading [] finishPins)).inValid = true ∧ (pinsNow (loading [] (pushPins 0x01#8))).inValid = true := by decide

theorem witness_TokenIgnoredWhilePacking : (packing docBytes).phase = .pack ∧ (pushPins 0x00#8).rst = false := by decide

/-- Both phases, with a silent host and with one that offers a token. -/
theorem witness_DoneAndFaultAreFrozen :
    (docDone.phase = .done ∧ (pinsNow docDone).rst = false ∧ docDone.pins = []) ∧
    (let s := { docDone with phase := .fault, fault := .malformedTail, pins := [finishPins] };
      s.phase = .fault ∧ (pinsNow s).rst = false ∧ s.pins ≠ []) := by decide

theorem witness_HostTakesOutputInOrder :
    let s := { docDone with pins := [{ PortIn.idle with outReady := true }] }
    (pinsNow s).rst = false ∧ step s = .next { docDone with taken := 1 } ∧ outData s = some 0x06#8 :=
  ⟨by decide, rfl, by decide⟩

/-- A step of each phase, for the statements about every step that answers a next state; none asserts `rst`. -/
theorem witness_step_next :
    (∃ t, step (loading [] finishPins) = .next t) ∧ (∃ t, step (packing docBytes) = .next t) ∧
    (∃ t, step { docDone with pins := [finishPins] } = .next t) ∧ (packing docBytes).phase ≠ .load ∧
    (pinsNow (packing docBytes)).rst = false :=
  ⟨⟨_, rfl⟩, ⟨_, rfl⟩, ⟨_, rfl⟩, by decide, by decide⟩

theorem witness_EveryStepKeepsInvariants : Inv (packing docBytes) ∧ ∃ t, step (packing docBytes) = .next t :=
  ⟨witness_inv_pack, _, rfl⟩

theorem witness_PcStrictlyIncreases :
    Inv (packing docBytes) ∧ (packing docBytes).phase = .pack ∧ (packing docBytes).pc < (packing docBytes).len ∧
    (pinsNow (packing docBytes)).rst = false ∧ ∃ t, step (packing docBytes) = .next t :=
  ⟨witness_inv_pack, by decide, by decide, by decide, _, rfl⟩

theorem witness_BytesAboveLAreNeverRead :
    SameBelowL (packing docBytes) { packing docBytes with prog := (packing docBytes).prog ++ [(4, 0x99#8)] } :=
  ⟨by decide, rfl⟩

theorem witness_EmitRowPutsOutRecord : Holds (packing docBytes) docBytes ∧ 0 + 4 ≤ (packing docBytes).len :=
  ⟨docBytes_holds, by decide⟩

theorem witness_HeaderByteValues : 13 ≤ 13 ∧ 0 ≤ 13 := by decide

theorem witness_PackingTerminates : Inv (packing docBytes) ∧ (packing docBytes).phase = .pack ∧ (packing docBytes).pins = [] :=
  ⟨witness_inv_pack, by decide, by decide⟩

/-- A Program that packs (V1) and one that runs past its end (V19). -/
theorem witness_PackerRefinesReference :
    (Fresh (packing docBytes) ∧ Holds (packing docBytes) docBytes ∧ (packing docBytes).pins = [] ∧
      (packing docBytes).fault = .none ∧
      referenceOut 0x1C#8 docBytes = some [0x06#8, 0x01#8, 0x10#8, 0x00#8, 0x01#8, 0xC0#8, 0x00#8, 0x2F#8]) ∧
    referenceOut 0x1C#8 [0xF5#8, 0x41#8, 0xC0#8, 0x00#8, 0x2F#8] = none :=
  ⟨⟨by unfold Fresh; decide, docBytes_holds, by decide, by decide, by decide⟩, by decide⟩

/-- A host with the one-byte input of V1, and with the input of V19. -/
theorem witness_EncoderComputesReference :
    (let s := { State.reset with params := tParams, pins := hostPins [0x01#8] };
      s.phase = .load ∧ s.fault = .none ∧ s.len = 0 ∧ Fresh s ∧ [0x01#8].length ≤ s.params.cap) ∧
    normalised ([0x01#8].take 20) = docBytes ∧
    referenceOut 0x1C#8 (normalised ([0xF5#8, 0x41#8].take 20)) = none :=
  ⟨⟨by decide, by decide, by decide, by unfold Fresh; decide, by decide⟩, by decide, by decide⟩

theorem witness_OverlongInputRaisesCapacityExceeded :
    let s := { State.reset with params := { tParams with cap := 1 }, pins := hostPins [0x40#8, 0x40#8] }
    s.phase = .load ∧ s.len = 0 ∧ Fresh s ∧ s.params.cap < [0x40#8, 0x40#8].length ∧ s.params.onOverflow = .fault :=
  ⟨by decide, by decide, by unfold Fresh; decide, by decide, by decide⟩

end Sys2Proof.Tests
end

section
/-!
The bounds of the registers in every state that meets the invariant (R4, R10, R26), and what they say of the registers'
widths and of the port `pc` (R147).
-/
namespace Sys2Proof.Machine

/-- The bounds that R10's widths rest on: the registers that count bytes of the Program stay within `L`, the two that
count bytes of a row within 13. -/
structure RegistersBounded (s : State) : Prop where
  pc_le_len : s.pc ≤ s.len
  instLeft_le_len : s.instLeft ≤ s.len
  startPc_le_len : s.startPc ≤ s.len
  spaceLeft_le : s.spaceLeft ≤ 13
  nStart_le : s.nStart ≤ 13

theorem Fresh.registersBounded {s : State} (h : Fresh s) : RegistersBounded s := by
  obtain ⟨hpc, hspace, hinst, hstart, hstartPc, -⟩ := h
  constructor <;> omega

theorem Packing.registersBounded {bs : List Byte} {s : State} (h : Packing bs s) : RegistersBounded s := by
  obtain ⟨-, -, -, -, -, -, hspace, hstart, hpc, hstartPc, -⟩ := h
  constructor <;> omega

theorem Complete.registersBounded {bs : List Byte} {s : State} (h : Complete bs s) : RegistersBounded s := by
  obtain ⟨-, -, -, -, -, hpc, hinst, hstart, hspace, hstartPc, -⟩ := h
  constructor <;> omega

/-- The bounds hold in each phase, whichever of R26's descriptions of the registers the phase has. -/
theorem PhaseInv.registersBounded {bs : List Byte} {s : State} (h : PhaseInv bs s) : RegistersBounded s := by
  unfold PhaseInv at h
  cases hphase : s.phase <;> simp only [hphase] at h
  case load =>
    obtain ⟨-, -, hfresh⟩ := h
    exact hfresh.registersBounded
  case pack =>
    obtain ⟨-, -, hpacking⟩ := h
    exact hpacking.registersBounded
  case done =>
    obtain ⟨-, -, hcomplete⟩ := h
    exact hcomplete.registersBounded
  case fault =>
    obtain ⟨-, -, hfresh⟩ | ⟨-, -, hpacking, -⟩ := h
    · exact hfresh.registersBounded
    · exact hpacking.registersBounded

/-- The Program fits its storage: before `FINISH` it has at most `CAP` bytes, after it at most the 3 of the terminator
more (R4, R26 b). -/
theorem PhaseInv.len_le_bufBytes {bs : List Byte} {s : State} (h : PhaseInv bs s) : s.len ≤ s.params.bufBytes := by
  unfold PhaseInv at h
  unfold Params.bufBytes
  cases hphase : s.phase <;> simp only [hphase] at h
  case load =>
    obtain ⟨-, hlen, -⟩ := h
    omega
  case pack | done =>
    obtain ⟨-, ⟨-, hlen⟩, -⟩ := h
    exact hlen
  case fault =>
    obtain ⟨-, hlen, -⟩ | ⟨-, ⟨-, hlen⟩, -⟩ := h
    · omega
    · exact hlen

/-- `AW` is wide enough for every count of stored bytes (R4). -/
theorem bufBytes_lt_two_pow_addrWidth (p : Params) : p.bufBytes < 2 ^ p.addrWidth :=
  Nat.lt_log2_self

theorem pcPort_toNat_of_lt {s : State} (h : s.pc < 2 ^ s.params.addrWidth) : (pcPort s).toNat = s.pc :=
  (BitVec.toNat_ofNat _ _).trans (Nat.mod_eq_of_lt h)

/-- Settles O51: `L` fits the storage and so the width `AW`, and the registers bounded by `L` fit with it. -/
theorem registersFitTheirWidths : Obligations.RegistersFitTheirWidths := by
  intro s hinv
  obtain ⟨-, -, -, bs, -, hphase⟩ := hinv
  have hregs : RegistersBounded s := hphase.registersBounded
  have hlen : s.len < 2 ^ s.params.addrWidth :=
    hphase.len_le_bufBytes.trans_lt (bufBytes_lt_two_pow_addrWidth s.params)
  have hport : (pcPort s).toNat = s.pc := pcPort_toNat_of_lt (hregs.pc_le_len.trans_lt hlen)
  exact ⟨hlen, hregs.pc_le_len, hregs.instLeft_le_len, hregs.startPc_le_len, hregs.spaceLeft_le, hregs.nStart_le, hport⟩

end Sys2Proof.Machine
end

section
/-!
What a `STEP`, an accepted token and a whole moment change and leave unchanged, said once from every state, and the
statements of the state's transitions that follow (spec/10_state.md R20 to R24).
-/
namespace Sys2Proof.Machine

/-- The state in which steps 3 and 4 find the row of `s`, opened if it was empty, with `n` bytes owed (R101, R102). -/
def owing (n : Nat) (s : State) : State := { openRow s with instLeft := n }

theorem continueInstr_eq_placeAndClose (s : State) : continueInstr s = placeAndClose s (owing s.instLeft s) := by
  have howing : owing s.instLeft s = openRow s := by
    unfold owing openRow
    split <;> rfl
  rw [howing, continueInstr]

/-- A `STEP` that answers a next state takes the fault, or places bytes of the instruction it resolves or goes on with,
or is the final flush (R100). -/
theorem packStep_next_cases {s t : State} (h : packStep s = .next t) :
    t = raise .malformedTail s ∨ (∃ n, placeAndClose s (owing n s) = .next t) ∨ (s.len ≤ s.pc ∧ flush s = .next t) := by
  obtain ⟨-, -, -, ht⟩ | ⟨-, -, i, -, hexec⟩ | ⟨-, -, hcont⟩ | hflush := packStep_next h
  · exact .inl ht
  · rw [exec_eq_packInstr] at hexec
    obtain ⟨-, ⟨-, -, ht⟩ | ⟨-, -, hplace⟩ | ⟨-, hcont⟩⟩ := packInstr_next hexec
    · exact .inl ht
    · exact .inr (.inl ⟨_, hplace⟩)
    · exact .inr (.inl ⟨_, continueInstr_eq_placeAndClose s ▸ hcont⟩)
  · exact .inr (.inl ⟨_, continueInstr_eq_placeAndClose s ▸ hcont⟩)
  · exact .inr (.inr hflush)

/-- What no `STEP` changes, how `out` grows, and where `phase` and `fault` go (R20 to R22, R144). -/
structure PackStepFrame (s t : State) : Prop where
  params : t.params = s.params
  prog : t.prog = s.prog
  len : t.len = s.len
  taken : t.taken = s.taken
  pins : t.pins = s.pins
  out : t.out = s.out ∨ ∃ r, t.out = s.out ++ rowBytes r
  phase : (t.phase = s.phase ∧ t.fault = s.fault) ∨ (s.len ≤ s.pc ∧ t.phase = .done ∧ t.fault = s.fault) ∨
    (t.phase = .fault ∧ t.fault = .malformedTail)

theorem PackStepFrame.of_raise (s : State) : PackStepFrame s (raise .malformedTail s) :=
  ⟨rfl, rfl, rfl, rfl, rfl, .inl rfl, .inr (.inr ⟨rfl, rfl⟩)⟩

theorem placeAndClose_frame {n : Nat} {s t : State} (h : placeAndClose s (owing n s) = .next t) : PackStepFrame s t := by
  obtain rfl | ⟨-, rfl⟩ | ⟨-, payload, -, rfl⟩ := placeAndClose_next h
  · exact .of_raise s
  · constructor <;> simp [owing]
  · constructor <;> simp [owing]

theorem flush_frame {s t : State} (hpc : s.len ≤ s.pc) (h : flush s = .next t) : PackStepFrame s t := by
  obtain rfl | ⟨-, rfl⟩ | ⟨-, payload, -, rfl⟩ := flush_next h
  · exact .of_raise s
  · constructor <;> simp [hpc]
  · constructor <;> simp [hpc]

theorem packStep_frame {s t : State} (h : packStep s = .next t) : PackStepFrame s t := by
  obtain rfl | ⟨n, hplace⟩ | ⟨hpc, hflush⟩ := packStep_next_cases h
  · exact .of_raise s
  · exact placeAndClose_frame hplace
  · exact flush_frame hpc hflush

/-- The Program buffer with the canonical terminator written at `a` (40_normalizer.md R62, R63). -/
def terminated (m : Memory) (a : Nat) : Memory :=
  memSet (memSet (memSet m a 0xC0#8) (a + 1) 0x00#8) (a + 2) 0x2F#8

theorem three_le_len_of_endsInTerminator {s : State} (h : endsInTerminator s = .ok true) : 3 ≤ s.len := by
  unfold endsInTerminator at h
  split at h
  · cases h
  · omega

/-- Either branch of `Normalise()` writes the terminator where the Program then ends, at `L - 3` or at `L`, and changes
nothing else (40_normalizer.md R60). -/
theorem normalise_ok_terminated {s t : State} (h : normalise s = .ok t) :
    ∃ a, a ≤ s.len ∧ a + 2 < s.params.bufBytes ∧ t = { s with prog := terminated s.prog a, len := a + 3 } := by
  obtain ⟨hends, hover⟩ | ⟨-, happ⟩ := normalise_ok h
  · obtain ⟨ha, rfl⟩ := memWrite3_ok hover
    refine ⟨s.len - 3, by omega, ha, ?_⟩
    rw [Nat.sub_add_cancel (three_le_len_of_endsInTerminator hends)]
    rfl
  · unfold appendTail at happ
    split at happ
    · cases happ
    · rename_i u hu
      obtain ⟨ha, rfl⟩ := memWrite3_ok hu
      exact ⟨s.len, le_rfl, ha, (Except.ok.inj happ).symm⟩

/-- An accepted token that answers a next state: `FINISH` begins to pack, `PUSH` writes one byte, faults, or drops the byte;
`prog` and `len` apart, no other element changes (45_host_operations.md R142, R143). -/
theorem acceptToken_next {p : PortIn} {s t : State} (h : acceptToken p s = .next t) :
    (p.inEnd = true ∧ t = { s with prog := t.prog, len := t.len, phase := .pack }) ∨
    (p.inEnd = false ∧ t = { s with prog := t.prog, len := t.len }) ∨
    (p.inEnd = false ∧ s.params.onOverflow = .fault ∧ t = raise .capacityExceeded s) := by
  unfold acceptToken at h
  split at h
  · obtain ⟨-, u, hu, rfl⟩ := finish_next h
    obtain ⟨a, -, -, rfl⟩ := normalise_ok_terminated hu
    exact .inl ⟨‹_›, rfl⟩
  · have hend : p.inEnd = false := by simpa using ‹¬ p.inEnd = true›
    obtain ⟨-, ⟨-, rfl⟩ | ⟨-, hover, rfl⟩ | ⟨-, -, rfl⟩⟩ := push_next h
    · exact .inr (.inl ⟨hend, rfl⟩)
    · exact .inr (.inr ⟨hend, hover, rfl⟩)
    · exact .inr (.inl ⟨hend, rfl⟩)

/-- In `PACK` without `rst` a moment is one `STEP`, after the host's side of it (R144). -/
theorem step_of_pack {s : State} (hphase : s.phase = .pack) (hrst : (pinsNow s).rst = false) :
    step s = packStep (passMoment s) := by
  simp only [step, sequencer, hrst, hphase, if_neg Bool.false_ne_true]

/-- Settles O38: neither `RESET`, nor a token, nor a `STEP`, nor a silent moment writes a parameter. -/
theorem parametersNeverChange : Obligations.ParametersNeverChange := by
  intro s t h
  obtain ⟨-, rfl⟩ | ⟨-, -, -, htoken⟩ | ⟨-, -, hpack⟩ | ⟨-, -, -, rfl⟩ := step_next h
  · rfl
  · obtain ⟨-, ht⟩ | ⟨-, ht⟩ | ⟨-, -, ht⟩ := acceptToken_next htoken <;> rw [ht] <;> rfl
  · exact (packStep_frame hpack).params
  · rfl

/-- Settles O39: a token leaves `out`, and a `STEP` leaves it or appends the record of the row it puts out. -/
theorem outputGrowsByWholeRecords : Obligations.OutputGrowsByWholeRecords := by
  intro s t hrst h
  obtain ⟨hrst', -⟩ | ⟨-, -, -, htoken⟩ | ⟨-, hphase, hpack⟩ | ⟨-, -, -, rfl⟩ := step_next h
  · rw [hrst] at hrst'
    cases hrst'
  · obtain ⟨-, ht⟩ | ⟨-, ht⟩ | ⟨-, -, ht⟩ := acceptToken_next htoken <;> rw [ht] <;> exact .inl rfl
  · exact (packStep_frame hpack).out.imp_right fun hrow => ⟨hphase, hrow⟩
  · exact .inl rfl

/-- Settles O40: one transition of R20 for each operation that a moment performs. -/
theorem phaseTransitions : Obligations.PhaseTransitions := by
  intro s t h
  obtain ⟨hrst, rfl⟩ | ⟨hrst, hload, hvalid, htoken⟩ | ⟨hrst, hphase, hpack⟩ | ⟨hrst, -, -, rfl⟩ := step_next h
  · exact .inl ⟨hrst, rfl, rfl⟩
  · obtain ⟨hend, ht⟩ | ⟨hend, ht⟩ | ⟨hend, hover, ht⟩ := acceptToken_next htoken
    · exact .inr (.inr (.inl ⟨hrst, hload, hvalid, hend, by rw [ht], by rw [ht]; rfl⟩))
    · exact .inr (.inl ⟨hrst, by rw [ht]; rfl, by rw [ht]; rfl⟩)
    · exact .inr (.inr (.inr (.inl ⟨hrst, hload, hvalid, hend, hover, by rw [ht]; rfl, by rw [ht]; rfl⟩)))
  · obtain ⟨hsame, hfault⟩ | ⟨hpc, hdone, hfault⟩ | ⟨hphase', hfault⟩ := (packStep_frame hpack).phase
    · exact .inr (.inl ⟨hrst, hsame, hfault⟩)
    · exact .inr (.inr (.inr (.inr (.inl ⟨hrst, hphase, hpc, hdone, hfault⟩))))
    · exact .inr (.inr (.inr (.inr (.inr ⟨hrst, hphase, hphase', hfault⟩))))
  · exact .inr (.inl ⟨hrst, rfl, rfl⟩)

end Sys2Proof.Machine
end

section
/-!
The invariants of R26: how the rows, the packer's registers and the Program buffer keep them, operation by operation, and
that a `STEP` before the end makes progress (spec/10_state.md R13, R26; 42_row_packer.md R108, R110).
-/
namespace Sys2Proof.Machine

/-! ### The length of a fetched instruction -/

theorem instLen_pos {read : Nat → Except Reject Byte} {runMax : Byte} {limit o n : Nat}
    (h : instLen read runMax limit o = .ok n) : 1 ≤ n := by
  unfold instLen alphaLength glabelLength textLength at h
  split at h
  · cases h
  · rename_i b0 _
    cases htag : opTag b0 <;> simp only [htag] at h
    case digits | alpha =>
      split at h <;> cases h
      omega
    case labelOrEnd =>
      split at h
      · cases h
      · split at h <;> cases h <;> omega
    all_goals
      cases h
      omega

theorem readRange_getD {read : Nat → Except Reject Byte} {n a k : Nat} {bs : List Byte}
    (h : readRange read n a = .ok bs) (hk : k < n) : read (a + k) = .ok (bs.getD k 0) := by
  obtain ⟨hlen, hread⟩ := readRange_ok_iff.1 h
  rw [hread k (by omega), List.getD_eq_getElem _ _ (by omega)]

/-- The decoder's two views of a length agree: `InstLen` and the rule of the decoded instruction's class (R70). -/
theorem assemble_length {read : Nat → Except Reject Byte} {runMax : Byte} {limit o n : Nat} {bs : List Byte}
    (hlen : instLen read runMax limit o = .ok n) (hbs : readRange read n o = .ok bs) : (assemble bs).length = n := by
  have hpos : 1 ≤ n := instLen_pos hlen
  have hn : bs.length = n := (readRange_ok_iff.1 hbs).1
  have hb0 : read o = .ok (bs.getD 0 0) := readRange_getD hbs hpos
  unfold instLen at hlen
  simp only [hb0] at hlen
  cases htag : opTag (bs.getD 0 0) <;> simp only [htag] at hlen
  case digits =>
    simp only [assemble, classOf, htag, Instr.length, List.length_drop]
    omega
  case alpha =>
    split at hlen
    · cases hlen
    · rename_i b1 hb1
      cases hlen
      rw [readRange_getD hbs (by unfold alphaLength; omega)] at hb1
      simp only [assemble, classOf, htag, Instr.length, Except.ok.inj hb1]
  case labelOrEnd =>
    split at hlen
    · cases hlen
    · rename_i b2 hb2
      have hn3 : 2 < n := by
        unfold glabelLength at hlen
        split at hlen <;> cases hlen <;> omega
      rw [readRange_getD hbs hn3] at hb2
      simp only [assemble, classOf, htag, Except.ok.inj hb2]
      cases hb : highBit b2 <;> simp only [hb] at hlen ⊢ <;> cases hlen <;> rfl
  all_goals
    cases hlen
    simp only [assemble, classOf, htag, Instr.length]

/-- A fetched instruction has a byte and lies whole below `L`. -/
theorem fetch_length {s : State} {i : Instr} (h : fetch s = .ok i) : 1 ≤ i.length ∧ s.pc + i.length ≤ s.len := by
  obtain ⟨n, bs, hlen, hfit, hbs, rfl⟩ := decodeAt_ok h
  rw [assemble_length hlen hbs]
  exact ⟨instLen_pos hlen, hfit⟩

/-! ### The rows put out -/

theorem numbered_append {k : Nat} {rows : List Row} {r : Row} (h : Numbered k rows)
    (hr : r.sequence = BitVec.ofNat 4 (k + rows.length)) : Numbered k (rows ++ [r]) := by
  induction rows generalizing k with
  | nil => exact ⟨hr, trivial⟩
  | cons q rows ih =>
    obtain ⟨hq, hrows⟩ := h
    exact ⟨hq, ih hrows (by rw [hr, List.length_cons, Nat.add_assoc, Nat.add_comm 1])⟩

theorem threaded_append {c : Byte} {rows : List Row} {r : Row} (h : Threaded c rows)
    (hr : r.checksum = csFold (lastChecksum c rows) (typeByte r.sequence :: overflowByte r.nStart r.nEnd :: r.payload)) :
    Threaded c (rows ++ [r]) := by
  induction rows generalizing c with
  | nil => exact ⟨hr, trivial⟩
  | cons q rows ih =>
    obtain ⟨hq, hrows⟩ := h
    exact ⟨hq, ih hrows hr⟩

@[simp] theorem lastChecksum_append (c : Byte) (rows : List Row) (r : Row) :
    lastChecksum c (rows ++ [r]) = r.checksum := by
  induction rows generalizing c with
  | nil => rfl
  | cons q rows ih => exact ih q.checksum

@[simp] theorem payloads_append (rows : List Row) (r : Row) : payloads (rows ++ [r]) = payloads rows ++ r.payload := by
  simp [payloads]

/-- The rows put out depend on `out` and the accumulator only. -/
theorem RowsOut.of_eq {s t : State} {rows : List Row} (h : RowsOut s rows) (hout : t.out = s.out)
    (hchecksum : t.checksum = s.checksum) : RowsOut t rows := by
  unfold RowsOut at *
  rwa [hout, hchecksum]

/-- Putting out the next row in sequence (44_row_emitter.md R130 to R133). -/
theorem RowsOut.putRow {s : State} {rows : List Row} (h : RowsOut s rows) {payload : List Byte} {ns ne : Nat}
    (hseq : s.sequence = BitVec.ofNat 4 rows.length) (hns : ns ≤ 13) (hne : ne ≤ 13) :
    RowsOut (putRow (makeRow s payload ns ne) s) (rows ++ [makeRow s payload ns ne]) := by
  obtain ⟨hout, hnumbered, hthreaded, hchecksum, hcounts⟩ := h
  refine ⟨by simp [hout], numbered_append hnumbered (by simpa [makeRow] using hseq),
    threaded_append hthreaded (by simp [makeRow, hchecksum]), by simp,
    List.forall_mem_append.2 ⟨hcounts, List.forall_mem_singleton.2 ⟨hns, hne⟩⟩⟩

/-! ### The Program -/

/-- A range below `L` reads as the bytes of the Program (20_memory.md R32). -/
theorem Holds.readRange_eq {s : State} {bs : List Byte} (h : Holds s bs) {n a : Nat} (hfit : a + n ≤ s.len) :
    readRange (memRead s) n a = .ok ((bs.drop a).take n) := by
  obtain ⟨hlen, hbytes⟩ := h
  rw [readRange_ok_iff]
  refine ⟨by simp; omega, fun k hk => ?_⟩
  have hk : a + k < s.len := by simp at hk; omega
  exact memRead_ok_iff.2 ⟨hk, by simp [hbytes _ hk, hlen, hk]⟩

/-! ### The open row -/

/-- The payload of the open row: the Program's bytes from `start_pc` that fill the space taken (44_row_emitter.md R130). -/
def openPayload (bs : List Byte) (s : State) : List Byte := (bs.drop s.startPc).take (13 - s.spaceLeft)

/-- The registers while a row is being filled after `rows` full ones, until it is put out: `Packing` with the row open, and
with no space left in it too, as between steps 3 and 4 (42_row_packer.md R104, R105). -/
structure Filling (bs : List Byte) (rows : List Row) (s : State) : Prop where
  rowsOut : RowsOut s rows
  full : ∀ r ∈ rows, r.payload.length = 13
  payloads_eq : payloads rows = bs.take (13 * rows.length)
  sequence : s.sequence = BitVec.ofNat 4 rows.length
  spaceLeft_lt : s.spaceLeft < 13
  nStart_le : s.nStart ≤ 13
  owed : s.pc + s.instLeft ≤ s.len
  startPc : s.startPc = 13 * rows.length
  pc : s.pc = s.startPc + (13 - s.spaceLeft)

namespace Filling

variable {bs : List Byte} {rows : List Row} {s : State}

/-- A row with space left stays open. -/
theorem packing (h : Filling bs rows s) (hspace : s.spaceLeft ≠ 0) : Packing bs s := by
  have hlt := h.spaceLeft_lt
  have howed := h.owed
  have hpc := h.pc
  exact ⟨rows, h.rowsOut, h.full, h.payloads_eq, h.sequence, by omega, by omega, h.nStart_le, howed, by omega,
    fun h13 => by omega, fun _ => ⟨h.startPc, hpc⟩⟩

/-- The payload of the row reads, since it ends at `pc` (44_row_emitter.md R134). -/
theorem readRange_eq (h : Filling bs rows s) (hholds : Holds s bs) :
    readRange (memRead s) (13 - s.spaceLeft) s.startPc = .ok (openPayload bs s) := by
  have howed := h.owed
  have hpc := h.pc
  exact hholds.readRange_eq (by omega)

theorem payload_length (h : Filling bs rows s) (hholds : Holds s bs) : (openPayload bs s).length = 13 - s.spaceLeft :=
  (readRange_ok_iff.1 (h.readRange_eq hholds)).1

/-- With the row's payload the rows carry the Program up to `pc` (R110 a). -/
theorem payloads_openPayload (h : Filling bs rows s) : payloads rows ++ openPayload bs s = bs.take s.pc := by
  rw [h.pc, List.take_add, h.payloads_eq, h.startPc, openPayload, h.startPc]

/-- The row is put out whole, without a fault (44_row_emitter.md R130). -/
theorem emitRow_eq (h : Filling bs rows s) (hholds : Holds s bs) (ns ne : Nat) :
    emitRow s.startPc (13 - s.spaceLeft) ns ne s = .ok (putRow (makeRow s (openPayload bs s) ns ne) s) := by
  simp only [emitRow, h.readRange_eq hholds]

/-- Step 4 on a full row: it is put out and the next row is empty (R105). -/
theorem packing_nextRow (h : Filling bs rows s) (hholds : Holds s bs) (hspace : s.spaceLeft = 0) {ne : Nat}
    (hne : ne ≤ 13) : Packing bs (nextRow (putRow (makeRow s (openPayload bs s) s.nStart ne) s)) := by
  have hpayload : (openPayload bs s).length = 13 := by rw [h.payload_length hholds, hspace]
  have hpc : s.pc = 13 * (rows.length + 1) := by rw [h.pc, h.startPc, hspace]; omega
  have hstartPc := h.startPc
  have howed := h.owed
  refine ⟨_, (h.rowsOut.putRow h.sequence h.nStart_le hne).of_eq rfl rfl,
    List.forall_mem_append.2 ⟨h.full, List.forall_mem_singleton.2 hpayload⟩, ?_, ?_, by simp, by simp,
    by simpa using h.nStart_le, by simpa using howed, by simp; omega, by simpa using hpc, by simp⟩
  · simpa [makeRow, hpc] using h.payloads_openPayload
  · simp [h.sequence, BitVec.ofNat_add]

/-- The last row, put out at the end of the Program, completes the run (R107, R110). -/
theorem complete (h : Filling bs rows s) (hholds : Holds s bs) (hend : s.len ≤ s.pc) (hspace : s.spaceLeft ≠ 0) :
    Complete bs { putRow (makeRow s (openPayload bs s) s.nStart 0) s with phase := .done } := by
  have hlen : bs.length = s.len := hholds.1
  have hpayload := h.payload_length hholds
  have hlt := h.spaceLeft_lt
  have howed := h.owed
  have hstartPc := h.startPc
  have hpc := h.pc
  refine ⟨_, (h.rowsOut.putRow h.sequence h.nStart_le (Nat.zero_le 13)).of_eq rfl rfl, ?_,
    List.forall_mem_append.2 ⟨fun r hr => by simp [h.full r hr], List.forall_mem_singleton.2 ?_⟩, by simpa using h.full,
    ?_, ?_, h.nStart_le, hlt.le, ?_, ?_⟩
  · rw [payloads_append]
    exact h.payloads_openPayload.trans (List.take_of_length_le (by omega))
  · simp only [makeRow]
    omega
  · show s.pc = s.len
    omega
  · show s.instLeft = 0
    omega
  · show s.startPc ≤ s.len
    omega
  · show s.sequence = BitVec.ofNat 4 (s.len / 13)
    rw [h.sequence, show s.len / 13 = rows.length by omega]

end Filling

namespace Packing

variable {bs : List Byte} {s : State}

theorem spaceLeft_pos (h : Packing bs s) : 1 ≤ s.spaceLeft := by
  obtain ⟨-, -, -, -, -, hpos, -⟩ := h
  exact hpos

theorem spaceLeft_le (h : Packing bs s) : s.spaceLeft ≤ 13 := by
  obtain ⟨-, -, -, -, -, -, hle, -⟩ := h
  exact hle

theorem owed (h : Packing bs s) : s.pc + s.instLeft ≤ s.len := by
  obtain ⟨-, -, -, -, -, -, -, -, howed, -⟩ := h
  exact howed

/-- Steps 1 and 3: the bytes placed stand in an open row (R102, R104). -/
theorem filling_place {n : Nat} (h : Packing bs s) (hn : 1 ≤ n) (hfit : s.pc + n ≤ s.len) :
    ∃ rows, Filling bs rows (place (owing n s)) := by
  obtain ⟨rows, hrows, hfull, hpayloads, hseq, hpos, hle, hstart, -, -, hempty, hopen⟩ := h
  refine ⟨rows, hrows.of_eq (by simp [owing]) (by simp [owing]), hfull, hpayloads, by simpa [owing] using hseq, ?_, ?_, ?_,
    ?_, ?_⟩ <;> simp only [place_spaceLeft, place_nStart, place_pc, place_instLeft, place_len, place_startPc, bytesFit,
      owing, openRow_spaceLeft, openRow_nStart, openRow_pc, openRow_len, openRow_startPc]
  · omega
  · split <;> omega
  · omega
  · split <;> omega
  · split <;> omega

/-- An open row is one being filled. -/
theorem filling (h : Packing bs s) (hspace : s.spaceLeft < 13) : ∃ rows, Filling bs rows s := by
  obtain ⟨rows, hrows, hfull, hpayloads, hseq, -, -, hstart, howed, -, -, hopen⟩ := h
  obtain ⟨hstartPc, hpc⟩ := hopen hspace
  exact ⟨rows, hrows, hfull, hpayloads, hseq, hspace, hstart, howed, hstartPc, hpc⟩

/-- With no row open at the end of the Program, the full rows are all of it (R107). -/
theorem complete_of_empty (h : Packing bs s) (hholds : Holds s bs) (hend : s.len ≤ s.pc) (hspace : 13 ≤ s.spaceLeft) :
    Complete bs { s with phase := .done } := by
  obtain ⟨rows, hrows, hfull, hpayloads, hseq, -, hle, hstart, howed, hstartPc, hempty, -⟩ := h
  have hlen : bs.length = s.len := hholds.1
  have hpc : s.pc = 13 * rows.length := hempty (by omega)
  refine ⟨rows, hrows, ?_, fun r hr => by simp [hfull r hr], fun r hr => hfull r (List.mem_of_mem_dropLast hr), ?_, ?_,
    hstart, hle, hstartPc, ?_⟩
  · rw [hpayloads, List.take_of_length_le (by omega)]
  · show s.pc = s.len
    omega
  · show s.instLeft = 0
    omega
  · show s.sequence = BitVec.ofNat 4 (s.len / 13)
    rw [hseq, show s.len / 13 = rows.length by omega]

end Packing

/-! ### `STEP` -/

theorem nEndOf_le (fit : Nat) (s : State) : nEndOf fit s ≤ fit := by
  unfold nEndOf
  split <;> omega

/-- Bytes owed that lie below `L` are placed without a fault: `pc` moves on by `bytes_fit` (R104, R105). -/
theorem Packing.placeAndClose_owing {bs : List Byte} {before s : State} {n : Nat} (h : Packing bs s) (hholds : Holds s bs)
    (hn : 1 ≤ n) (hfit : s.pc + n ≤ s.len) :
    ∃ t, placeAndClose before (owing n s) = .next t ∧ Packing bs t ∧ t.pc = s.pc + min s.spaceLeft n ∧
      t.phase = s.phase ∧ t.fault = s.fault := by
  obtain ⟨rows, hfilling⟩ := h.filling_place hn hfit
  have hplaced : Holds (place (owing n s)) bs := by simpa [Holds, owing] using hholds
  by_cases hspace : (place (owing n s)).spaceLeft = 0
  · have hemit := hfilling.emitRow_eq hplaced
    rw [hspace] at hemit
    refine ⟨_, by rw [placeAndClose, closeRow, if_pos hspace, hemit],
      hfilling.packing_nextRow hplaced hspace ?_, ?_, ?_, ?_⟩
    · have hle := h.spaceLeft_le
      have hbytes : bytesFit (owing n s) = min s.spaceLeft n := by simp [bytesFit, owing]
      exact (nEndOf_le _ _).trans (by omega)
    all_goals simp [owing, bytesFit]
  · refine ⟨_, by rw [placeAndClose, closeRow, if_neg hspace], hfilling.packing hspace, ?_, ?_, ?_⟩
    all_goals simp [owing, bytesFit]

/-- The final flush ends the run without a fault (R107). -/
theorem Packing.flush {bs : List Byte} {s : State} (h : Packing bs s) (hholds : Holds s bs) (hend : s.len ≤ s.pc) :
    ∃ t, flush s = .next t ∧ Complete bs t ∧ t.phase = .done ∧ t.fault = s.fault := by
  by_cases hspace : s.spaceLeft < 13
  · obtain ⟨rows, hfilling⟩ := h.filling hspace
    have hpos : s.spaceLeft ≠ 0 := Nat.one_le_iff_ne_zero.1 h.spaceLeft_pos
    exact ⟨_, by rw [Machine.flush, if_pos hspace, hfilling.emitRow_eq hholds],
      hfilling.complete hholds hend hpos, rfl, rfl⟩
  · exact ⟨_, by rw [Machine.flush, if_neg hspace], h.complete_of_empty hholds hend (Nat.not_lt.1 hspace), rfl, rfl⟩

/-- The `STEP` of an instruction that lies whole below `L`, with nothing owed before it (R100). -/
theorem packInstr_eq_placeAndClose {n : Nat} {s : State} (hphase : s.phase = .pack) (hinst : s.instLeft = 0)
    (hfit : s.pc + n ≤ s.len) : packInstr n s = placeAndClose s (owing n s) := by
  rw [packInstr, if_pos hphase, if_pos hinst, if_neg (Nat.not_lt.2 hfit), owing]

/-- What a `STEP` can do while the Program `bs` is packed: `MalformedTail` before the bytes of an instruction are placed,
between 1 and 13 bytes placed, or the end of the run. -/
theorem Packing.packStep_next {bs : List Byte} {s t : State} (h : Packing bs s) (hholds : Holds s bs)
    (hphase : s.phase = .pack) (hstep : packStep s = .next t) :
    (s.pc < s.len ∧ s.instLeft = 0 ∧ fetch s = .error .malformedTail ∧ t = raise .malformedTail s) ∨
    (s.pc < s.len ∧ t.phase = .pack ∧ t.fault = s.fault ∧ Packing bs t ∧ s.pc < t.pc ∧ t.pc ≤ s.pc + 13 ∧ t.pc ≤ s.len) ∨
    (s.len ≤ s.pc ∧ t.phase = .done ∧ t.fault = s.fault ∧ Complete bs t) := by
  have hplace {n : Nat} (hn : 1 ≤ n) (hfit : s.pc + n ≤ s.len) (ht : placeAndClose s (owing n s) = .next t) :
      t.phase = .pack ∧ t.fault = s.fault ∧ Packing bs t ∧ s.pc < t.pc ∧ t.pc ≤ s.pc + 13 ∧ t.pc ≤ s.len := by
    obtain ⟨u, hu, hpacking, hpc, hphase', hfault⟩ := h.placeAndClose_owing (before := s) hholds hn hfit
    obtain rfl : u = t := Host.Outcome.next.inj (hu.symm.trans ht)
    have hpos := h.spaceLeft_pos
    have hle := h.spaceLeft_le
    exact ⟨hphase'.trans hphase, hfault, hpacking, by omega, by omega, by omega⟩
  obtain hfault | ⟨hpc, hinst, i, hi, hexec⟩ | ⟨hpc, hinst, hcont⟩ | ⟨hpc, hflush⟩ := Machine.packStep_next hstep
  · exact .inl hfault
  · obtain ⟨hn, hfit⟩ := fetch_length hi
    rw [exec_eq_packInstr, packInstr_eq_placeAndClose hphase hinst hfit] at hexec
    exact .inr (.inl ⟨hpc, hplace hn hfit hexec⟩)
  · rw [continueInstr_eq_placeAndClose] at hcont
    exact .inr (.inl ⟨hpc, hplace (Nat.one_le_iff_ne_zero.2 hinst) h.owed hcont⟩)
  · obtain ⟨u, hu, hcomplete, hdone, hfault⟩ := h.flush hholds hpc
    obtain rfl : u = t := Host.Outcome.next.inj (hu.symm.trans hflush)
    exact .inr (.inr ⟨hpc, hdone, hfault, hcomplete⟩)

end Sys2Proof.Machine
end

section
/-!
Every operation keeps the invariants of R26, and the state after reset meets them (spec/10_state.md R26).
-/
namespace Sys2Proof.Machine

/-! ### The description of each phase -/

theorem phaseInv_load_iff {bs : List Byte} {s : State} (h : s.phase = .load) :
    PhaseInv bs s ↔ s.fault = .none ∧ s.len ≤ s.params.cap ∧ Fresh s := by
  simp only [PhaseInv, h]

theorem phaseInv_pack_iff {bs : List Byte} {s : State} (h : s.phase = .pack) :
    PhaseInv bs s ↔ s.fault = .none ∧ Normalised bs s ∧ Packing bs s := by
  simp only [PhaseInv, h]

theorem phaseInv_done_iff {bs : List Byte} {s : State} (h : s.phase = .done) :
    PhaseInv bs s ↔ s.fault = .none ∧ Normalised bs s ∧ Complete bs s := by
  simp only [PhaseInv, h]

theorem phaseInv_fault_iff {bs : List Byte} {s : State} (h : s.phase = .fault) :
    PhaseInv bs s ↔ (s.fault = .capacityExceeded ∧ s.len = s.params.cap ∧ Fresh s) ∨
      (s.fault = .malformedTail ∧ Normalised bs s ∧ Packing bs s ∧ s.pc < s.len ∧ s.instLeft = 0 ∧
        fetch s = .error .malformedTail) := by
  simp only [PhaseInv, h]

/-! ### The Program buffer -/

/-- A write inside the storage leaves the buffer inside it (20_memory.md R33). -/
theorem memSet_inside {m : Memory} {size a : Nat} {v : Byte} (h : ∀ c ∈ m, c.1 < size) (ha : a < size) :
    ∀ c ∈ memSet m a v, c.1 < size := by
  intro c hc
  obtain rfl | hc := mem_memSet hc
  · exact ha
  · exact h c hc

theorem terminated_wf {m : Memory} (h : m.wf) (a : Nat) : (terminated m a).wf :=
  memSet_wf (memSet_wf (memSet_wf h _ _) _ _) _ _

theorem terminated_inside {m : Memory} {size a : Nat} (h : ∀ c ∈ m, c.1 < size) (ha : a + 2 < size) :
    ∀ c ∈ terminated m a, c.1 < size :=
  memSet_inside (memSet_inside (memSet_inside h (by omega)) (by omega)) ha

/-- A byte pushed at `L` becomes the Program's last (R142). -/
theorem Holds.push {s : State} {bs : List Byte} (h : Holds s bs) (b : Byte) :
    Holds { s with prog := memSet s.prog s.len b, len := s.len + 1 } (bs ++ [b]) := by
  obtain ⟨hlen, hbytes⟩ := h
  refine ⟨by simp [hlen], fun a ha => ?_⟩
  obtain hlt | rfl : a < s.len ∨ a = s.len := by
    have ha : a < s.len + 1 := ha
    omega
  · rw [List.getElem?_append_left (by omega), ← hbytes a hlt]
    exact memGet_memSet_other _ _ hlt.ne
  · rw [← hlen, List.getElem?_concat_length, hlen]
    exact memGet_memSet_same _ _ _

/-- The terminator written at `a` replaces what the Program held from there on: it is three bytes pushed at `a`. -/
theorem Holds.terminated {s : State} {bs : List Byte} (h : Holds s bs) {a : Nat} (ha : a ≤ s.len) :
    Holds { s with prog := terminated s.prog a, len := a + 3 } (bs.take a ++ Config.term) := by
  have htake : Holds { s with len := a } (bs.take a) := by
    obtain ⟨hlen, hbytes⟩ := h
    refine ⟨by simp; omega, fun c hc => ?_⟩
    have hc : c < a := hc
    rw [List.getElem?_take_of_lt hc]
    exact hbytes c (by omega)
  have hterm := ((htake.push 0xC0#8).push 0x00#8).push 0x2F#8
  simpa [Config.term, Machine.terminated, Nat.add_assoc] using hterm

/-! ### The operations -/

/-- With nothing loaded, nothing out and fresh registers only the buffer's form is left to hold (R26 a). -/
theorem inv_of_unloaded {s : State} (hwf : s.prog.wf) (hinside : ∀ c ∈ s.prog, c.1 < s.params.bufBytes)
    (hphase : s.phase = .load) (hfault : s.fault = .none) (hlen : s.len = 0) (htaken : s.taken = 0) (hfresh : Fresh s) :
    Inv s :=
  ⟨hwf, hinside, by omega, [], ⟨hlen.symm, fun a ha => by omega⟩,
    (phaseInv_load_iff hphase).2 ⟨hfault, by omega, hfresh⟩⟩

/-- Settles O48: nothing is loaded, nothing is out, and the registers are fresh. -/
theorem invariantsHoldAtReset : Obligations.InvariantsHoldAtReset :=
  inv_of_unloaded reset_memory_wf (by simp [State.reset]) rfl rfl rfl rfl ⟨rfl, rfl, rfl, rfl, rfl, rfl, rfl, rfl⟩

theorem inv_reset {s : State} (h : Inv s) : Inv (reset s) := by
  obtain ⟨hwf, hinside, -, -⟩ := h
  exact inv_of_unloaded hwf hinside rfl rfl rfl rfl ⟨rfl, rfl, rfl, rfl, rfl, rfl, rfl, rfl⟩

/-- The host takes a byte only when one is out (R147). -/
theorem inv_passMoment {s : State} (h : Inv s) : Inv (passMoment s) := by
  obtain ⟨hwf, hinside, htaken, hbs⟩ := h
  refine ⟨hwf, hinside, ?_, hbs⟩
  simp only [passMoment_taken, passMoment_out]
  split
  · rename_i htakes
    obtain ⟨hvalid, -⟩ := Bool.and_eq_true_iff.1 htakes
    exact of_decide_eq_true hvalid
  · exact htaken

theorem inv_push {b : Byte} {s t : State} (h : Inv s) (hstep : push b s = .next t) : Inv t := by
  obtain ⟨hwf, hinside, htaken, bs, hholds, hphase⟩ := h
  obtain ⟨hload, hcases⟩ := push_next hstep
  obtain ⟨hfault, hlen, hfresh⟩ := (phaseInv_load_iff hload).1 hphase
  obtain ⟨hroom, rfl⟩ | ⟨hfull, -, rfl⟩ | ⟨-, -, rfl⟩ := hcases
  · have hload' : State.phase { s with prog := memSet s.prog s.len b, len := s.len + 1 } = .load := hload
    have hstored : s.len < s.params.bufBytes := by unfold Params.bufBytes; omega
    exact ⟨memSet_wf hwf _ _, memSet_inside hinside hstored, htaken, bs ++ [b], hholds.push b,
      (phaseInv_load_iff hload').2 ⟨hfault, Nat.succ_le_of_lt hroom, hfresh⟩⟩
  · exact ⟨hwf, hinside, htaken, bs, hholds, (phaseInv_fault_iff rfl).2 (.inl ⟨rfl, hlen.antisymm hfull, hfresh⟩)⟩
  · exact ⟨hwf, hinside, htaken, bs, hholds, hphase⟩

/-- Fresh registers stand as R26 c says with no row out and none open. -/
theorem Fresh.packing {s : State} (h : Fresh s) (bs : List Byte) : Packing bs s := by
  obtain ⟨hpc, hspace, hinst, hstart, hstartPc, hseq, hchecksum, hout⟩ := h
  refine ⟨[], ⟨hout, trivial, trivial, hchecksum, by simp⟩, by simp, rfl, hseq, by omega, by omega, by omega, by omega,
    by omega, fun _ => hpc, fun hlt => by omega⟩

theorem inv_finish {s t : State} (h : Inv s) (hstep : finish s = .next t) : Inv t := by
  obtain ⟨hwf, hinside, htaken, bs, hholds, hphase⟩ := h
  obtain ⟨hload, u, hu, rfl⟩ := finish_next hstep
  obtain ⟨hfault, hlen, hfresh⟩ := (phaseInv_load_iff hload).1 hphase
  obtain ⟨a, ha, hstored, rfl⟩ := normalise_ok_terminated hu
  have hfresh' : Fresh { s with prog := terminated s.prog a, len := a + 3, phase := .pack } := hfresh
  exact ⟨terminated_wf hwf a, terminated_inside hinside hstored, htaken, _, hholds.terminated ha,
    (phaseInv_pack_iff rfl).2 ⟨hfault, ⟨⟨_, rfl⟩, Nat.add_le_add_right (ha.trans hlen) 3⟩, hfresh'.packing _⟩⟩

theorem inv_acceptToken {p : PortIn} {s t : State} (h : Inv s) (hstep : acceptToken p s = .next t) : Inv t := by
  unfold acceptToken at hstep
  split at hstep
  · exact inv_finish h hstep
  · exact inv_push h hstep

theorem inv_packStep {s t : State} (h : Inv s) (hpack : s.phase = .pack) (hstep : packStep s = .next t) : Inv t := by
  obtain ⟨hwf, hinside, htaken, bs, hholds, hphase⟩ := h
  obtain ⟨hfault, hnormal, hpacking⟩ := (phaseInv_pack_iff hpack).1 hphase
  have hframe : PackStepFrame s t := packStep_frame hstep
  have hnormal' : Normalised bs t := by rwa [Normalised, hframe.len, hframe.params]
  have htaken' : t.taken ≤ t.out.length := by
    rw [hframe.taken]
    obtain hout | ⟨r, hout⟩ := hframe.out
    · rwa [hout]
    · rw [hout, List.length_append]
      omega
  refine ⟨by rwa [hframe.prog], by rwa [hframe.prog, hframe.params], htaken', bs,
    by rwa [Holds, hframe.len, hframe.prog], ?_⟩
  obtain ⟨hpc, hinst, hfetch, rfl⟩ | ⟨-, hphase', hfault', hpacking', -⟩ | ⟨-, hdone, hfault', hcomplete⟩ :=
    hpacking.packStep_next hholds hpack hstep
  · exact (phaseInv_fault_iff rfl).2 (.inr ⟨rfl, hnormal', hpacking, hpc, hinst, hfetch⟩)
  · exact (phaseInv_pack_iff hphase').2 ⟨hfault'.trans hfault, hnormal', hpacking'⟩
  · exact (phaseInv_done_iff hdone).2 ⟨hfault'.trans hfault, hnormal', hcomplete⟩

/-- Settles O49: each operation that a moment performs keeps them, and so does the host's side of the moment. -/
theorem everyStepKeepsInvariants : Obligations.EveryStepKeepsInvariants := by
  intro s t hinv h
  have hpassed : Inv (passMoment s) := inv_passMoment hinv
  obtain ⟨-, rfl⟩ | ⟨-, -, -, htoken⟩ | ⟨-, hphase, hpack⟩ | ⟨-, -, -, rfl⟩ := step_next h
  · exact inv_reset hpassed
  · exact inv_acceptToken hpassed htoken
  · exact inv_packStep hpassed hphase hpack
  · exact hpassed

/-- Settles O41: a `STEP` before the end places bytes of an instruction or faults; it is not the final flush. -/
theorem pcStrictlyIncreases : Obligations.PcStrictlyIncreases := by
  intro s t hinv hphase hpc hrst h
  obtain ⟨-, -, -, bs, hholds, hphaseInv⟩ := inv_passMoment hinv
  have hpacking : Packing bs (passMoment s) := by
    obtain ⟨-, -, hpacking⟩ := (phaseInv_pack_iff hphase).1 hphaseInv
    exact hpacking
  rw [step_of_pack hphase hrst] at h
  obtain ⟨-, hinst, -, rfl⟩ | ⟨-, hpack, -, -, hlt, h13, hlen⟩ | ⟨hend, -⟩ := hpacking.packStep_next hholds hphase h
  · exact .inr ⟨rfl, rfl, rfl, hinst⟩
  · exact .inl ⟨hpack, hlt, h13, hlen⟩
  · exact absurd hpc (Nat.not_lt.2 hend)

end Sys2Proof.Machine
end

section
/-!
Two states that differ only in Program bytes at or above `L` step alike: every read is below `L` (spec/10_state.md R11,
spec/20_memory.md R32), so each operation sends such states to such states.
-/
namespace Sys2Proof.Machine

/-! ### What is the same of two such states -/

namespace SameBelowL

variable {s s' : State}

theorem exists_prog (h : SameBelowL s s') :
    ∃ m, (∀ a, a < s.len → memGet s.prog a = memGet m a) ∧ s' = { s with prog := m } :=
  ⟨s'.prog, h⟩

/-- What is computed without the Program buffer is the same. -/
theorem eq_of_frame {α : Type} (h : SameBelowL s s') (f : State → α) (hf : ∀ m, f { s with prog := m } = f s) :
    f s' = f s := by
  obtain ⟨m, -, rfl⟩ := h.exists_prog
  exact hf m

/-- An update that neither reads nor writes the Program buffer and does not raise `L` keeps two states alike. -/
theorem congr (h : SameBelowL s s') (f : State → State) (hf : ∀ m, f { s with prog := m } = { f s with prog := m })
    (hprog : (f s).prog = s.prog) (hlen : (f s).len ≤ s.len) : SameBelowL (f s) (f s') := by
  obtain ⟨m, hbytes, rfl⟩ := h.exists_prog
  refine ⟨fun a ha => ?_, by rw [hf m]⟩
  rw [hf m, hprog]
  exact hbytes a (ha.trans_le hlen)

theorem memRead_eq (h : SameBelowL s s') : memRead s' = memRead s := by
  obtain ⟨m, hbytes, rfl⟩ := h.exists_prog
  funext a
  unfold memRead
  by_cases ha : s.len ≤ a
  · simp only [ha, if_true]
  · simp only [ha, if_false, hbytes a (Nat.not_le.1 ha)]

theorem fetch_eq (h : SameBelowL s s') : fetch s' = fetch s := by
  unfold fetch
  rw [h.memRead_eq, h.eq_of_frame State.params fun _ => rfl, h.eq_of_frame State.len fun _ => rfl,
    h.eq_of_frame State.pc fun _ => rfl]

theorem progByte_eq (h : SameBelowL s s') {a : Nat} (ha : a < s.len) : progByte s' a = progByte s a := by
  unfold progByte
  rw [h.1 a ha]

/-- The normaliser's reads are guarded by `L >= 3` (40_normalizer.md R61). -/
theorem endsInTerminator_eq (h : SameBelowL s s') : endsInTerminator s' = endsInTerminator s := by
  unfold endsInTerminator
  rw [h.eq_of_frame State.len fun _ => rfl]
  by_cases hlen : s.len < 3
  · rw [if_pos hlen, if_pos hlen]
  · rw [if_neg hlen, if_neg hlen, h.progByte_eq (by omega), h.progByte_eq (by omega)]

theorem owing (h : SameBelowL s s') (n : Nat) : SameBelowL (owing n s) (owing n s') := by
  refine h.congr (Machine.owing n) (fun m => ?_) (by simp [Machine.owing]) (by simp [Machine.owing])
  unfold Machine.owing openRow
  split <;> rfl

theorem place (h : SameBelowL s s') : SameBelowL (place s) (place s') :=
  h.congr Machine.place (fun _ => rfl) rfl le_rfl

theorem nextRow (h : SameBelowL s s') : SameBelowL (nextRow s) (nextRow s') :=
  h.congr Machine.nextRow (fun _ => rfl) rfl le_rfl

theorem putRow_makeRow (h : SameBelowL s s') (payload : List Byte) (ns ne : Nat) :
    SameBelowL (putRow (makeRow s payload ns ne) s) (putRow (makeRow s' payload ns ne) s') :=
  h.congr (fun u => putRow (makeRow u payload ns ne) u) (fun _ => rfl) rfl le_rfl

theorem withPhase (h : SameBelowL s s') (p : Phase) : SameBelowL { s with phase := p } { s' with phase := p } :=
  h.congr (fun u => { u with phase := p }) (fun _ => rfl) rfl le_rfl

theorem raise (h : SameBelowL s s') (f : FaultCode) : SameBelowL (raise f s) (raise f s') :=
  h.congr (Machine.raise f) (fun _ => rfl) rfl le_rfl

theorem reset (h : SameBelowL s s') : SameBelowL (reset s) (reset s') :=
  h.congr Machine.reset (fun _ => rfl) rfl (Nat.zero_le _)

theorem passMoment (h : SameBelowL s s') : SameBelowL (passMoment s) (passMoment s') :=
  h.congr Machine.passMoment (fun _ => rfl) rfl le_rfl

/-- A byte written at `a <= L` in both states: they are alike up to `a`, the byte written among it. -/
theorem write (h : SameBelowL s s') {a : Nat} (v : Byte) (ha : a ≤ s.len) :
    SameBelowL { s with prog := memSet s.prog a v, len := a + 1 } { s' with prog := memSet s'.prog a v, len := a + 1 } := by
  obtain ⟨m, hbytes, rfl⟩ := h.exists_prog
  refine ⟨fun c hc => ?_, rfl⟩
  have hc : c < a + 1 := hc
  by_cases hca : c = a
  · simp [hca]
  · simpa [memGet_memSet_other _ _ hca] using hbytes c (by omega)

/-- The terminator is three such writes. -/
theorem terminated (h : SameBelowL s s') {a : Nat} (ha : a ≤ s.len) :
    SameBelowL { s with prog := terminated s.prog a, len := a + 3 }
      { s' with prog := terminated s'.prog a, len := a + 3 } :=
  ((h.write 0xC0#8 ha).write 0x00#8 le_rfl).write 0x2F#8 le_rfl

end SameBelowL

/-! ### The operations -/

/-- Two results of an operation that may stop: the same stop, or two states alike below `L`. -/
inductive AgreeResult {ε : Type} : Except ε State → Except ε State → Prop where
  | ok {t t' : State} (h : SameBelowL t t') : AgreeResult (.ok t) (.ok t')
  | error (e : ε) : AgreeResult (.error e) (.error e)

/-- Two outcomes of a step: the same fault, the same refusal, or two states alike below `L`. -/
inductive AgreeOutcome :
    Host.Outcome State Fault Refusal → Host.Outcome State Fault Refusal → Prop where
  | next {t t' : State} (h : SameBelowL t t') : AgreeOutcome (.next t) (.next t')
  | fault (r : Fault) : AgreeOutcome (.fault r) (.fault r)
  | refused (r : Refusal) : AgreeOutcome (.refused r) (.refused r)

/-- Where the last of the normaliser's three addresses does not exist, the first that does not stops the model. -/
theorem memWrite3_of_le {a : Nat} (v0 v1 v2 : Byte) {s : State} (h : s.params.bufBytes ≤ a + 2) :
    memWrite3 a v0 v1 v2 s = .error (.writeOutside (max a s.params.bufBytes)) := by
  by_cases h0 : a < s.params.bufBytes
  · by_cases h1 : a + 1 < s.params.bufBytes
    · have hsize : s.params.bufBytes = a + 2 := by omega
      simp [memWrite3, memWrite, hsize]
    · have hsize : s.params.bufBytes = a + 1 := by omega
      simp [memWrite3, memWrite, hsize]
  · simp [memWrite3, memWrite, h0, max_eq_left (Nat.not_lt.1 h0)]

section

variable {s s' : State} (h : SameBelowL s s')
include h

theorem rejected_agree (e : Reject) : AgreeOutcome (rejected e s) (rejected e s') := by
  cases e with
  | malformedTail => exact .next (h.raise _)
  | noValue a => exact .fault _

theorem emitRow_agree (start p ns ne : Nat) : AgreeResult (emitRow start p ns ne s) (emitRow start p ns ne s') := by
  unfold emitRow
  rw [h.memRead_eq]
  cases readRange (memRead s) p start with
  | error e => exact .error e
  | ok payload => exact .ok (h.putRow_makeRow payload ns ne)

theorem closeRow_agree (fit : Nat) : AgreeResult (closeRow fit s) (closeRow fit s') := by
  unfold closeRow
  rw [h.eq_of_frame State.spaceLeft fun _ => rfl, h.eq_of_frame State.startPc fun _ => rfl,
    h.eq_of_frame State.nStart fun _ => rfl, h.eq_of_frame (nEndOf fit) fun _ => rfl]
  by_cases hspace : s.spaceLeft = 0
  · have hemit := emitRow_agree h s.startPc 13 s.nStart (nEndOf fit s)
    rw [if_pos hspace, if_pos hspace]
    generalize emitRow _ _ _ _ s = x, emitRow _ _ _ _ s' = y at hemit ⊢
    cases hemit with
    | error e => exact .error e
    | ok ht => exact .ok ht.nextRow
  · rw [if_neg hspace, if_neg hspace]
    exact .ok h

theorem placeAndClose_agree {before before' : State} (hbefore : SameBelowL before before') :
    AgreeOutcome (placeAndClose before s) (placeAndClose before' s') := by
  unfold placeAndClose
  rw [h.eq_of_frame bytesFit fun _ => rfl]
  have hclose := closeRow_agree h.place (bytesFit s)
  generalize closeRow _ (place s) = x, closeRow _ (place s') = y at hclose ⊢
  cases hclose with
  | error e => exact rejected_agree hbefore e
  | ok ht => exact .next ht

theorem continueInstr_agree : AgreeOutcome (continueInstr s) (continueInstr s') := by
  rw [continueInstr_eq_placeAndClose, continueInstr_eq_placeAndClose, h.eq_of_frame State.instLeft fun _ => rfl]
  exact placeAndClose_agree (h.owing _) h

theorem packInstr_agree (n : Nat) : AgreeOutcome (packInstr n s) (packInstr n s') := by
  unfold packInstr
  rw [h.eq_of_frame State.phase fun _ => rfl, h.eq_of_frame State.instLeft fun _ => rfl,
    h.eq_of_frame State.len fun _ => rfl, h.eq_of_frame State.pc fun _ => rfl]
  split_ifs
  · exact .next (h.raise _)
  · exact placeAndClose_agree (h.owing n) h
  · exact continueInstr_agree h
  · exact .refused _

theorem flush_agree : AgreeOutcome (flush s) (flush s') := by
  have hspace' : s'.spaceLeft = s.spaceLeft := h.eq_of_frame State.spaceLeft fun _ => rfl
  unfold flush
  by_cases hspace : s.spaceLeft < 13
  · have hemit := emitRow_agree h s.startPc (13 - s.spaceLeft) s.nStart 0
    rw [if_pos hspace, if_pos (hspace' ▸ hspace), hspace', h.eq_of_frame State.startPc fun _ => rfl,
      h.eq_of_frame State.nStart fun _ => rfl]
    generalize emitRow _ _ _ _ s = x, emitRow _ _ _ _ s' = y at hemit ⊢
    cases hemit with
    | error e => exact rejected_agree h e
    | ok ht => exact .next (ht.withPhase .done)
  · rw [if_neg hspace, if_neg (hspace' ▸ hspace)]
    exact .next (h.withPhase .done)

theorem packStep_agree : AgreeOutcome (packStep s) (packStep s') := by
  unfold packStep
  rw [h.fetch_eq, h.eq_of_frame State.pc fun _ => rfl, h.eq_of_frame State.len fun _ => rfl,
    h.eq_of_frame State.instLeft fun _ => rfl]
  split_ifs
  · cases fetch s with
    | error e => exact rejected_agree h e
    | ok i =>
      simp only [exec_eq_packInstr]
      exact packInstr_agree h i.length
  · exact continueInstr_agree h
  · exact flush_agree h

theorem push_agree (b : Byte) : AgreeOutcome (push b s) (push b s') := by
  obtain ⟨m, -, rfl⟩ := h.exists_prog
  unfold push memWrite
  dsimp only
  split_ifs
  · exact .next (h.write b le_rfl)
  · exact .fault _
  · cases s.params.onOverflow with
    | fault => exact .next (h.raise _)
    | truncate => exact .next h
  · exact .refused _

theorem overwriteTail_agree (hlen : 3 ≤ s.len) : AgreeResult (overwriteTail s) (overwriteTail s') := by
  have hterm := h.terminated (a := s.len - 3) (Nat.sub_le _ _)
  rw [Nat.sub_add_cancel hlen] at hterm
  obtain ⟨m, -, rfl⟩ := h.exists_prog
  unfold overwriteTail
  by_cases hstored : s.len - 3 + 2 < s.params.bufBytes
  · rw [memWrite3_of_lt _ _ _ hstored, memWrite3_of_lt _ _ _ (s := { s with prog := m }) hstored]
    exact .ok hterm
  · rw [memWrite3_of_le _ _ _ (Nat.not_lt.1 hstored),
      memWrite3_of_le _ _ _ (s := { s with prog := m }) (Nat.not_lt.1 hstored)]
    exact .error _

theorem appendTail_agree : AgreeResult (appendTail s) (appendTail s') := by
  have hterm := h.terminated le_rfl
  obtain ⟨m, -, rfl⟩ := h.exists_prog
  unfold appendTail
  by_cases hstored : s.len + 2 < s.params.bufBytes
  · rw [memWrite3_of_lt _ _ _ hstored, memWrite3_of_lt _ _ _ (s := { s with prog := m }) hstored]
    exact .ok hterm
  · rw [memWrite3_of_le _ _ _ (Nat.not_lt.1 hstored),
      memWrite3_of_le _ _ _ (s := { s with prog := m }) (Nat.not_lt.1 hstored)]
    exact .error _

theorem normalise_agree : AgreeResult (normalise s) (normalise s') := by
  unfold normalise
  rw [h.endsInTerminator_eq]
  cases hends : endsInTerminator s with
  | error r => exact .error r
  | ok found =>
    cases found with
    | true => exact overwriteTail_agree h (three_le_len_of_endsInTerminator hends)
    | false => exact appendTail_agree h

theorem finish_agree : AgreeOutcome (finish s) (finish s') := by
  unfold finish
  rw [h.eq_of_frame State.phase fun _ => rfl]
  split_ifs
  · have hnormal := normalise_agree h
    generalize normalise s = x, normalise s' = y at hnormal ⊢
    cases hnormal with
    | error r => exact .fault r
    | ok ht => exact .next (ht.withPhase .pack)
  · exact .refused _

theorem acceptToken_agree (p : PortIn) : AgreeOutcome (acceptToken p s) (acceptToken p s') := by
  unfold acceptToken
  split_ifs
  · exact finish_agree h
  · exact push_agree h p.inData

theorem noOperation_agree : AgreeOutcome (noOperation s) (noOperation s') := by
  unfold noOperation
  rw [h.eq_of_frame State.pins fun _ => rfl, h.eq_of_frame State.phase fun _ => rfl]
  cases s.pins with
  | nil => exact .refused _
  | cons p ps => exact .next h.passMoment

theorem step_agree : AgreeOutcome (step s) (step s') := by
  unfold step sequencer
  rw [h.eq_of_frame pinsNow fun _ => rfl, h.eq_of_frame State.phase fun _ => rfl]
  by_cases hrst : (pinsNow s).rst = true
  · rw [if_pos hrst, if_pos hrst]
    exact .next h.passMoment.reset
  · rw [if_neg hrst, if_neg hrst]
    cases s.phase with
    | load =>
      dsimp only
      split_ifs
      · exact acceptToken_agree h.passMoment _
      · exact noOperation_agree h
    | pack => exact packStep_agree h.passMoment
    | done | fault => exact noOperation_agree h

end

/-- Settles O42: the outcomes of the two steps agree, whichever of the three they are. -/
theorem bytesAboveLAreNeverRead : Obligations.BytesAboveLAreNeverRead := by
  intro s s' h
  have hagree : AgreeOutcome (step s) (step s') := step_agree h
  generalize step s = x, step s' = y at hagree ⊢
  cases hagree with
  | next ht => simpa using ht
  | fault r => simp
  | refused r => simp

end Sys2Proof.Machine
end

section
/-!
What a step leaves unchanged: the Program outside phase `LOAD`, and the frame of every instruction (spec/20_memory.md R31,
R42; 42_row_packer.md R102 to R105).
-/
namespace Sys2Proof.Machine

/-- Settles O37: a `STEP` and a silent moment write neither `Prog` nor `L`; `RESET` writes `L` only. -/
theorem programImmutableAfterFinish : Obligations.ProgramImmutableAfterFinish := by
  intro s t hphase h
  obtain ⟨hrst, rfl⟩ | ⟨-, hload, -⟩ | ⟨-, -, hpack⟩ | ⟨-, -, -, rfl⟩ := step_next h
  · exact ⟨rfl, fun hrst' => nomatch hrst.symm.trans hrst'⟩
  · exact absurd hload hphase
  · have hframe : PackStepFrame (passMoment s) t := packStep_frame hpack
    exact ⟨hframe.prog, fun _ => hframe.len⟩
  · exact ⟨rfl, fun _ => rfl⟩

/-- An instruction that answers a next state takes the fault or places bytes: its own, or those still owed of the
instruction before it (R100, R103). -/
theorem exec_next_cases {i : Instr} {s t : State} (h : exec i s = .next t) :
    t = raise .malformedTail s ∨ ∃ n, placeAndClose s (owing n s) = .next t := by
  rw [exec_eq_packInstr] at h
  obtain ⟨-, ⟨-, -, ht⟩ | ⟨-, -, hplace⟩ | ⟨-, hcont⟩⟩ := packInstr_next h
  · exact .inl ht
  · exact .inr ⟨_, hplace⟩
  · exact .inr ⟨_, continueInstr_eq_placeAndClose s ▸ hcont⟩

/-- Only step 1 writes `n_start` and `start_pc`, and only on an empty row (R102). -/
theorem placeAndClose_rowStart {n : Nat} {s t : State} (h : placeAndClose s (owing n s) = .next t)
    (hopen : s.spaceLeft ≠ 13) : t.nStart = s.nStart ∧ t.startPc = s.startPc := by
  obtain rfl | ⟨-, rfl⟩ | ⟨-, payload, -, rfl⟩ := placeAndClose_next h
  · exact ⟨rfl, rfl⟩
  · simp [owing, hopen]
  · simp [owing, hopen]

/-- `out`, `checksum` and `sequence` stand, or a row is put out and all three move on with it. -/
def RecordsMoveTogether (s t : State) : Prop :=
  (t.out = s.out ∧ t.checksum = s.checksum ∧ t.sequence = s.sequence) ∨
    ∃ r, t.out = s.out ++ rowBytes r ∧ t.checksum = r.checksum ∧ t.sequence = s.sequence + 1#4

/-- A `STEP` that places bytes takes the fault and nothing else (R157), or keeps `phase` and `fault`. -/
theorem placeAndClose_record {n : Nat} {s t : State} (h : placeAndClose s (owing n s) = .next t) :
    t = raise .malformedTail s ∨ (t.phase = s.phase ∧ t.fault = s.fault ∧ RecordsMoveTogether s t) := by
  obtain ht | ⟨-, rfl⟩ | ⟨-, payload, -, rfl⟩ := placeAndClose_next h
  · exact .inl ht
  · exact .inr ⟨openRow_phase s, openRow_fault s, .inl ⟨openRow_out s, openRow_checksum s, openRow_sequence s⟩⟩
  · exact .inr ⟨openRow_phase s, openRow_fault s,
      .inr ⟨_, congrArg (· ++ _) (openRow_out s), rfl, congrArg (· + 1#4) (openRow_sequence s)⟩⟩

/-- Settles O21: an instruction takes the fault, which writes `phase` and `fault` only, or it places bytes. -/
theorem instructionFrame : Obligations.InstructionFrame := by
  intro i s t h
  obtain rfl | ⟨n, hplace⟩ := exec_next_cases h
  · exact ⟨rfl, rfl, rfl, rfl, fun _ => rfl, fun _ => ⟨rfl, rfl⟩, .inl rfl⟩
  · have hframe : PackStepFrame s t := placeAndClose_frame hplace
    exact ⟨hframe.params, hframe.len, hframe.taken, hframe.pins, fun a => congrArg (memGet · a) hframe.prog,
      placeAndClose_rowStart hplace, placeAndClose_record hplace⟩

end Sys2Proof.Machine
end

section
/-!
From a state that meets the invariants the model never stops on a fault of its own: every byte read below `L` has a value,
and every write lies in the `CAP + 3` bytes of storage (spec/20_memory.md R32, R33).
-/
namespace Sys2Proof.Machine

/-! ### Reads: a decoder whose reader fails only with `MalformedTail` fails only with it -/

section

variable {read : Nat → Except Reject Byte} (hread : ∀ a e, read a = .error e → e = .malformedTail)
include hread

theorem eq_malformedTail_of_scanRun {runMax : Byte} {fuel a : Nat} {e : Reject}
    (h : scanRun read runMax fuel a = .error e) : e = .malformedTail := by
  induction fuel generalizing a with
  | zero => exact (Except.error.inj h).symm
  | succ fuel ih =>
    unfold scanRun at h
    split at h
    · rename_i e' he
      exact hread a e (Except.error.inj h ▸ he)
    · split at h
      · split at h
        · rename_i e' he
          exact ih (Except.error.inj h ▸ he)
        · cases h
      · cases h

theorem eq_malformedTail_of_instLen {runMax : Byte} {limit o : Nat} {e : Reject}
    (h : instLen read runMax limit o = .error e) : e = .malformedTail := by
  unfold instLen at h
  split at h
  · rename_i e' he
    exact hread o e (Except.error.inj h ▸ he)
  · rename_i b0 _
    cases htag : opTag b0 <;> simp only [htag] at h
    case digits =>
      split at h
      · rename_i e' he
        exact eq_malformedTail_of_scanRun hread (Except.error.inj h ▸ he)
      · cases h
    case alpha =>
      split at h
      · rename_i e' he
        exact hread _ e (Except.error.inj h ▸ he)
      · cases h
    case labelOrEnd =>
      split at h
      · rename_i e' he
        exact hread _ e (Except.error.inj h ▸ he)
      · split at h <;> cases h
    all_goals cases h

theorem eq_malformedTail_of_decodeAt {runMax : Byte} {limit o : Nat} {e : Reject}
    (h : decodeAt read runMax limit o = .error e) : e = .malformedTail := by
  unfold decodeAt at h
  split at h
  · rename_i e' he
    exact eq_malformedTail_of_instLen hread (Except.error.inj h ▸ he)
  · split at h
    · exact (Except.error.inj h).symm
    · split at h
      · rename_i e' he
        obtain ⟨k, -, hk⟩ := readRange_error he
        exact hread _ e (Except.error.inj h ▸ hk)
      · cases h

end

namespace Holds

variable {bs : List Byte} {s : State}

/-- Every byte below `L` has a value (R11). -/
theorem exists_memGet (h : Holds s bs) {a : Nat} (ha : a < s.len) : ∃ b, memGet s.prog a = some b := by
  obtain ⟨hlen, hbytes⟩ := h
  exact ⟨bs[a], by rw [hbytes a ha, List.getElem?_eq_getElem]⟩

theorem eq_malformedTail_of_memRead (h : Holds s bs) (a : Nat) (e : Reject) (he : memRead s a = .error e) :
    e = .malformedTail := by
  cases e with
  | malformedTail => rfl
  | noValue c =>
    obtain ⟨ha, hnone, -⟩ := memRead_noValue_iff.1 he
    obtain ⟨b, hb⟩ := h.exists_memGet ha
    cases hnone.symm.trans hb

theorem eq_malformedTail_of_fetch (h : Holds s bs) {e : Reject} (he : fetch s = .error e) : e = .malformedTail :=
  eq_malformedTail_of_decodeAt h.eq_malformedTail_of_memRead he

theorem exists_progByte (h : Holds s bs) {a : Nat} (ha : a < s.len) : ∃ b, progByte s a = .ok b := by
  obtain ⟨b, hb⟩ := h.exists_memGet ha
  exact ⟨b, by rw [progByte, hb]⟩

/-- The two reads of the normaliser's decision are below `L` (40_normalizer.md R61). -/
theorem exists_endsInTerminator (h : Holds s bs) : ∃ found, endsInTerminator s = .ok found := by
  by_cases hlen : s.len < 3
  · exact ⟨false, if_pos hlen⟩
  · obtain ⟨first, hfirst⟩ := h.exists_progByte (a := s.len - 3) (by omega)
    obtain ⟨last, hlast⟩ := h.exists_progByte (a := s.len - 1) (by omega)
    exact ⟨tailTest first last, by simp only [endsInTerminator, if_neg hlen, hfirst, hlast]⟩

/-! ### The operations -/

/-- Either branch of `Normalise()` writes inside the storage, since at most `CAP` bytes are loaded (R33). -/
theorem normalise_progress (h : Holds s bs) (hlen : s.len ≤ s.params.cap) : ∃ t, normalise s = .ok t := by
  have happend : s.len + 2 < s.params.bufBytes := by unfold Params.bufBytes; omega
  have hoverwrite : s.len - 3 + 2 < s.params.bufBytes := by omega
  obtain ⟨found, hfound⟩ := h.exists_endsInTerminator
  cases found with
  | true => exact ⟨_, by rw [normalise, hfound, overwriteTail, memWrite3_of_lt _ _ _ hoverwrite]⟩
  | false => exact ⟨_, by rw [normalise, hfound, appendTail, memWrite3_of_lt _ _ _ happend]⟩

theorem finish_progress (h : Holds s bs) (hphase : s.phase = .load) (hlen : s.len ≤ s.params.cap) :
    ∃ t, finish s = .next t := by
  obtain ⟨t, ht⟩ := h.normalise_progress hlen
  exact ⟨_, by rw [finish, if_pos hphase, ht]⟩

end Holds

/-- A push below `CAP` writes inside the storage; at `CAP` it writes nothing (R142). -/
theorem push_progress (b : Byte) {s : State} (hphase : s.phase = .load) : ∃ t, push b s = .next t := by
  rw [push, if_pos hphase]
  by_cases hroom : s.len < s.params.cap
  · have hstored : s.len < s.params.bufBytes := by unfold Params.bufBytes; omega
    exact ⟨_, by rw [if_pos hroom, memWrite, if_pos hstored]⟩
  · rw [if_neg hroom]
    cases s.params.onOverflow with
    | fault => exact ⟨_, rfl⟩
    | truncate => exact ⟨_, rfl⟩

theorem acceptToken_progress (p : PortIn) {s : State} (hinv : Inv s) (hphase : s.phase = .load) :
    ∃ t, acceptToken p s = .next t := by
  obtain ⟨-, -, -, bs, hholds, hphaseInv⟩ := hinv
  obtain ⟨-, hlen, -⟩ := (phaseInv_load_iff hphase).1 hphaseInv
  unfold acceptToken
  split
  · exact hholds.finish_progress hphase hlen
  · exact push_progress p.inData hphase

/-- A `STEP` answers a next state: a fetch that fails is the fault `MalformedTail`, and the bytes an instruction or the
final flush puts out are below `L` (R100). -/
theorem packStep_progress {s : State} (hinv : Inv s) (hphase : s.phase = .pack) : ∃ t, packStep s = .next t := by
  obtain ⟨-, -, -, bs, hholds, hphaseInv⟩ := hinv
  obtain ⟨-, -, hpacking⟩ := (phaseInv_pack_iff hphase).1 hphaseInv
  have hplace {n : Nat} (hn : 1 ≤ n) (hfit : s.pc + n ≤ s.len) : ∃ t, placeAndClose s (owing n s) = .next t := by
    obtain ⟨t, ht, -⟩ := hpacking.placeAndClose_owing (before := s) hholds hn hfit
    exact ⟨t, ht⟩
  unfold packStep
  split_ifs with hpc hinst
  · cases hfetch : fetch s with
    | error e =>
      obtain rfl : e = .malformedTail := hholds.eq_malformedTail_of_fetch hfetch
      exact ⟨_, rfl⟩
    | ok i =>
      obtain ⟨hn, hfit⟩ := fetch_length hfetch
      simp only [exec_eq_packInstr, packInstr_eq_placeAndClose hphase hinst hfit]
      exact hplace hn hfit
  · rw [continueInstr_eq_placeAndClose]
    exact hplace (Nat.one_le_iff_ne_zero.2 hinst) hpacking.owed
  · obtain ⟨t, ht, -⟩ := hpacking.flush hholds (Nat.not_lt.1 hpc)
    exact ⟨t, ht⟩

/-! ### One moment -/

theorem step_of_rst {s : State} (hrst : (pinsNow s).rst = true) : step s = .next (reset (passMoment s)) :=
  if_pos hrst

/-- In `LOAD` without `rst` a token on the input channel is accepted (R147). -/
theorem step_of_token {s : State} (hphase : s.phase = .load) (hrst : (pinsNow s).rst = false)
    (hvalid : (pinsNow s).inValid = true) : step s = acceptToken (pinsNow s) (passMoment s) := by
  simp only [step, sequencer, hrst, hphase, hvalid, if_neg Bool.false_ne_true, if_pos]

/-- With no token in `LOAD`, and in `DONE` and `FAULT`, no operation is enabled (R146). -/
theorem step_of_noOperation {s : State} (hrst : (pinsNow s).rst = false) (hphase : s.phase ≠ .pack)
    (htoken : s.phase = .load → (pinsNow s).inValid = false) : step s = noOperation s := by
  cases hs : s.phase with
  | load => simp only [step, sequencer, hrst, hs, htoken hs, if_neg Bool.false_ne_true]
  | pack => exact absurd hs hphase
  | done | fault => simp only [step, sequencer, hrst, hs, if_neg Bool.false_ne_true]

/-- With no operation enabled the moment passes, unless the host is silent. -/
theorem noOperation_progress (s : State) :
    (∃ t, noOperation s = .next t) ∨ (s.pins = [] ∧ noOperation s = .refused (.notEnabled .step s.phase)) := by
  unfold noOperation
  cases s.pins with
  | nil => exact .inr ⟨rfl, rfl⟩
  | cons p ps => exact .inl ⟨_, rfl⟩

/-- Settles O50: `RESET`, a token and a `STEP` each answer a next state, and where none of them is enabled the moment
passes or the host is silent. -/
theorem noStepStopsTheModel : Obligations.NoStepStopsTheModel := by
  intro s hinv
  have hpassed : Inv (passMoment s) := inv_passMoment hinv
  cases hrst : (pinsNow s).rst with
  | true => exact .inl ⟨_, step_of_rst hrst⟩
  | false =>
    by_cases hpack : s.phase = .pack
    · rw [step_of_pack hpack hrst]
      exact .inl (packStep_progress hpassed hpack)
    · by_cases htoken : s.phase = .load ∧ (pinsNow s).inValid = true
      · obtain ⟨hload, hvalid⟩ := htoken
        rw [step_of_token hload hrst hvalid]
        exact .inl (acceptToken_progress _ hpassed hload)
      · rw [step_of_noOperation hrst hpack fun hload => Bool.eq_false_iff.2 fun hvalid => htoken ⟨hload, hvalid⟩]
        exact (noOperation_progress s).imp_right fun ⟨hpins, hrefused⟩ => ⟨hpins, hpack, hrefused⟩

end Sys2Proof.Machine
end

section
/-!
The encoder and the splitting of bytes into an instruction, without a reader: what each class's opcode byte is, and that
`assemble` and `encode` undo each other (spec/30_encoding.md R46 to R48).
-/
namespace Sys2Proof

/-! ### Well-formedness of the classes with a condition (R46, R47) -/

@[simp] theorem wf_digits_iff {runMax op : Byte} {run : List Byte} :
    (Instr.digits op run).wf runMax = true ↔
      (0x10 ≤ op.toNat ∧ op.toNat ≤ 0x1C) ∧ ∀ r ∈ run, inRun runMax r = true := by
  simp [Instr.wf, inRun]

@[simp] theorem wf_alpha_iff {runMax op b1 : Byte} {body : List Byte} :
    (Instr.alpha op b1 body).wf runMax = true ↔
      (0x1D ≤ op.toNat ∧ op.toNat ≤ 0x1F) ∧ body.length = (loNibble b1).toNat := by
  simp [Instr.wf, toNat_loNibble]

@[simp] theorem wf_glabel_iff {runMax b1 b2 : Byte} {x : BitVec 4} {body : List Byte} :
    (Instr.glabel x b1 b2 body).wf runMax = true ↔
      x.toNat ≤ 0xD ∧ highBit b2 = true ∧ body.length = (loNibble b2).toNat := by
  simp [Instr.wf, toNat_loNibble, highBit_eq, and_assoc]

@[simp] theorem wf_endMark_iff {runMax b1 b2 : Byte} {x : BitVec 4} :
    (Instr.endMark x b1 b2).wf runMax = true ↔ x.toNat ≤ 0xD ∧ highBit b2 = false := by
  simp [Instr.wf, highBit_eq]

@[simp] theorem wf_text_iff {runMax : Byte} {n : BitVec 4} {body : List Byte} :
    (Instr.text n body).wf runMax = true ↔ body.length = n.toNat := by
  simp [Instr.wf]

theorem encode_length {runMax : Byte} {i : Instr} (h : i.wf runMax = true) : (encode i).length = i.length := by
  cases i with
  | digits op run => exact Laws.EncodeLength.digits op run runMax h
  | alpha op b1 body => exact Laws.EncodeLength.alpha op b1 body runMax h
  | glabel x b1 b2 body => exact Laws.EncodeLength.glabel x b1 b2 body runMax h
  | text n body => exact Laws.EncodeLength.text n body runMax h
  | _ => rfl

theorem encode_ne_nil (i : Instr) : encode i ≠ [] := by
  cases i <;> simp [encode]

/-- The opcode map sends the bytes of an instruction to its class, whatever follows them (R48). -/
theorem classOf_encode {runMax : Byte} {i : Instr} (h : i.wf runMax = true) (rest : List Byte) :
    classOf ((encode i ++ rest).getD 0 0) ((encode i ++ rest).getD 2 0) = i.opClass := by
  cases i with
  | digits op run => simp [encode, classOf, Instr.opClass, opTag_digits (wf_digits_iff.1 h).1]
  | alpha op b1 body => simp [encode, classOf, Instr.opClass, opTag_alpha (wf_alpha_iff.1 h).1]
  | glabel x b1 b2 body =>
    obtain ⟨hx, hb2, -⟩ := wf_glabel_iff.1 h
    simp [encode, classOf, Instr.opClass, opTag_labelOrEnd hx, hb2]
  | endMark x b1 b2 =>
    obtain ⟨hx, hb2⟩ := wf_endMark_iff.1 h
    simp [encode, classOf, Instr.opClass, opTag_labelOrEnd hx, hb2]
  | _ => simp [encode, classOf, Instr.opClass]

/-- Splitting the bytes of an instruction gives it back (R46). -/
theorem assemble_encode {runMax : Byte} {i : Instr} (h : i.wf runMax = true) : assemble (encode i) = i := by
  have hclass : classOf ((encode i).getD 0 0) ((encode i).getD 2 0) = i.opClass := by
    simpa using classOf_encode h []
  unfold assemble
  simp only [hclass]
  cases i <;> simp [encode, Instr.opClass]

/-! ### The opcode byte of a class (R48) -/

/-- What the opcode byte alone says of a class (R48): `GLABEL` and `END` share their opcode bytes. -/
def OpClass.tag : OpClass → OpTag
  | .one0 => .one0
  | .digits => .digits
  | .alpha => .alpha
  | .one2 => .one2
  | .one3 => .one3
  | .one4 => .one4
  | .one5 => .one5
  | .one6 => .one6
  | .one7 => .one7
  | .one8 => .one8
  | .two9 => .two9
  | .twoA => .twoA
  | .twoB => .twoB
  | .cshort => .cshort
  | .glabel | .endMark => .labelOrEnd
  | .threeD => .threeD
  | .threeE => .threeE
  | .text => .text

theorem opTag_eq_tag_classOf (b0 b2 : Byte) : opTag b0 = (classOf b0 b2).tag := by
  unfold classOf
  cases opTag b0
  case labelOrEnd => cases highBit b2 <;> rfl
  all_goals rfl

theorem classOf_of_labelOrEnd {b0 : Byte} (h : opTag b0 = .labelOrEnd) (b2 : Byte) :
    classOf b0 b2 = if highBit b2 then .glabel else .endMark := by
  simp only [classOf, h]

/-- The high nibble that selects a class whose opcode byte is that nibble and four free bits (R48). -/
def tagNibble : OpTag → Option (BitVec 4)
  | .one0 => some 0x0#4
  | .one2 => some 0x2#4
  | .one3 => some 0x3#4
  | .one4 => some 0x4#4
  | .one5 => some 0x5#4
  | .one6 => some 0x6#4
  | .one7 => some 0x7#4
  | .one8 => some 0x8#4
  | .two9 => some 0x9#4
  | .twoA => some 0xA#4
  | .twoB => some 0xB#4
  | .labelOrEnd => some 0xC#4
  | .threeD => some 0xD#4
  | .threeE => some 0xE#4
  | .text => some 0xF#4
  | .digits | .alpha | .cshort => none

theorem append_loNibble_of_opTag (b : Byte) : ∀ n ∈ tagNibble (opTag b), n ++ loNibble b = b := by
  revert b; decide

theorem toNat_of_opTag_digits {b : Byte} : opTag b = .digits → 0x10 ≤ b.toNat ∧ b.toNat ≤ 0x1C := by
  revert b; decide

theorem toNat_of_opTag_alpha {b : Byte} : opTag b = .alpha → 0x1D ≤ b.toNat ∧ b.toNat ≤ 0x1F := by
  revert b; decide

theorem loNibble_of_opTag_labelOrEnd {b : Byte} : opTag b = .labelOrEnd → (loNibble b).toNat ≤ 0xD := by
  revert b; decide

theorem append_lowBit_of_opTag_cshort {b : Byte} : opTag b = .cshort → 0x67#7 ++ b.extractLsb' 0 1 = b := by
  revert b; decide

/-! ### Bytes back from the instruction they split into -/

theorem getD_cons_drop {bs : List Byte} {k : Nat} (h : k < bs.length) : bs.getD k 0 :: bs.drop (k + 1) = bs.drop k := by
  rw [List.drop_eq_getElem_cons h, List.getD_eq_getElem _ _ h]

/-- Bytes as many as the rule of their class says are the encoding of the instruction they split into (R46). -/
theorem encode_assemble {bs : List Byte} (h : (assemble bs).length = bs.length) : encode (assemble bs) = bs := by
  have htag := opTag_eq_tag_classOf (bs.getD 0 0) (bs.getD 2 0)
  have hnibble := append_loNibble_of_opTag (bs.getD 0 0)
  unfold assemble at h ⊢
  cases hclass : classOf (bs.getD 0 0) (bs.getD 2 0)
  all_goals
    simp only [hclass, Instr.length, encode, htag, OpClass.tag, tagNibble, Option.mem_some_iff, forall_eq']
      at h hnibble ⊢
  case one0 | one2 | one3 | one4 | one5 | one6 | one7 | one8 =>
    obtain ⟨b0, rfl⟩ := List.length_eq_one_iff.1 h.symm
    rw [hnibble]; rfl
  case two9 | twoA | twoB =>
    obtain ⟨b0, b1, rfl⟩ := List.length_eq_two.1 h.symm
    rw [hnibble]; rfl
  case cshort =>
    obtain ⟨b0, b1, rfl⟩ := List.length_eq_two.1 h.symm
    rw [append_lowBit_of_opTag_cshort (htag.trans (by rw [hclass]; rfl))]; rfl
  case threeD | threeE | endMark =>
    obtain ⟨b0, b1, b2, rfl⟩ := List.length_eq_three.1 h.symm
    rw [hnibble]; rfl
  case digits => exact getD_cons_drop (by omega)
  case text => rw [hnibble]; exact getD_cons_drop (by unfold textLength at h; omega)
  case alpha =>
    unfold alphaLength at h
    rw [getD_cons_drop (by omega)]; exact getD_cons_drop (by omega)
  case glabel =>
    unfold glabelLength at h
    rw [hnibble, getD_cons_drop (by omega), getD_cons_drop (by omega)]; exact getD_cons_drop (by omega)

/-- Such bytes are a well-formed instruction where the bytes of a digit run lie in the run range (R46, R72). -/
theorem assemble_wf {runMax : Byte} {bs : List Byte} (h : (assemble bs).length = bs.length)
    (hrun : opTag (bs.getD 0 0) = .digits → ∀ r ∈ bs.drop 1, inRun runMax r = true) : (assemble bs).wf runMax = true := by
  have htag := opTag_eq_tag_classOf (bs.getD 0 0) (bs.getD 2 0)
  unfold assemble at h ⊢
  cases hclass : classOf (bs.getD 0 0) (bs.getD 2 0)
  all_goals
    simp only [hclass, OpClass.tag] at htag
    simp only [hclass, Instr.length] at h ⊢
  case digits => exact wf_digits_iff.2 ⟨toNat_of_opTag_digits htag, hrun htag⟩
  case alpha =>
    unfold alphaLength at h
    exact wf_alpha_iff.2 ⟨toNat_of_opTag_alpha htag, by rw [List.length_drop]; omega⟩
  case glabel =>
    rw [classOf_of_labelOrEnd htag] at hclass
    have hsel : highBit (bs.getD 2 0) = true := by simpa using hclass
    unfold glabelLength at h
    exact wf_glabel_iff.2 ⟨loNibble_of_opTag_labelOrEnd htag, hsel, by rw [List.length_drop]; omega⟩
  case endMark =>
    rw [classOf_of_labelOrEnd htag] at hclass
    have hsel : highBit (bs.getD 2 0) = false := by simpa using hclass
    exact wf_endMark_iff.2 ⟨loNibble_of_opTag_labelOrEnd htag, hsel⟩
  case text =>
    unfold textLength at h
    exact wf_text_iff.2 (by rw [List.length_drop]; omega)
  all_goals rfl

end Sys2Proof
end

section
/-!
The decoder against the encoder: the bytes of a well-formed instruction decode to it, through a list of bytes and through
the Program, and what the decoder gives is well-formed and encodes to the bytes read (spec/30_encoding.md R45, R46, R50).
-/
namespace Sys2Proof.Machine

/-! ### The bytes of an instruction decode to it -/

/-- The bytes read at the front of a longer range. -/
theorem readRange_append {read : Nat → Except Reject Byte} {n a : Nat} {xs ys : List Byte}
    (h : readRange read n a = .ok (xs ++ ys)) : readRange read xs.length a = .ok xs := by
  obtain ⟨-, hread⟩ := readRange_ok_iff.1 h
  refine readRange_ok_iff.2 ⟨rfl, fun k hk => ?_⟩
  rw [← List.getElem_append_left hk (bs := ys)]
  exact hread k (by rw [List.length_append]; omega)

/-- `InstLen` resolves the length of an instruction whose bytes stand at `o`, ended by what follows them (R70 to R89). -/
theorem instLen_encode {read : Nat → Except Reject Byte} {runMax : Byte} {limit o n : Nat} {i : Instr} {rest : List Byte}
    (hwf : i.wf runMax = true) (hend : endedBy runMax i rest) (hread : readRange read n o = .ok (encode i ++ rest))
    (hfit : o + n ≤ limit) : instLen read runMax limit o = .ok i.length := by
  obtain ⟨hn, hbyte⟩ := readRange_ok_iff.1 hread
  cases i with
  | digits op run =>
    obtain ⟨hop, hrun⟩ := wf_digits_iff.1 hwf
    obtain ⟨r, rest, rfl, hr⟩ := hend
    have hb0 : read o = .ok op := hbyte 0 (by simp [encode])
    have hscan : scanRun read runMax (limit - o) (o + 1) = .ok run.length := by
      refine scanRun_ok_iff.2
        ⟨by simp [encode] at hn; omega, fun j hj => ⟨run[j], ?_, hrun _ (List.getElem_mem hj)⟩, r, ?_, hr⟩
      · simpa [encode, Nat.add_assoc, Nat.add_comm 1, List.getElem_append_left hj] using
          hbyte (j + 1) (by simp [encode]; omega)
      · simpa [encode, Nat.add_assoc, Nat.add_comm 1] using hbyte (run.length + 1) (by simp [encode])
    simp [instLen, hb0, opTag_digits hop, hscan, Instr.length]
  | alpha op b1 body =>
    have hb0 : read o = .ok op := hbyte 0 (by simp [encode])
    have hb1 : read (o + 1) = .ok b1 := hbyte 1 (by simp [encode])
    simp [instLen, hb0, opTag_alpha (wf_alpha_iff.1 hwf).1, hb1, Instr.length]
  | glabel x b1 b2 body =>
    obtain ⟨hx, hsel, -⟩ := wf_glabel_iff.1 hwf
    have hb0 : read o = .ok (0xC#4 ++ x) := hbyte 0 (by simp [encode])
    have hb2 : read (o + 2) = .ok b2 := hbyte 2 (by simp [encode])
    simp [instLen, hb0, opTag_labelOrEnd hx, hb2, hsel, Instr.length]
  | endMark x b1 b2 =>
    obtain ⟨hx, hsel⟩ := wf_endMark_iff.1 hwf
    have hb0 : read o = .ok (0xC#4 ++ x) := hbyte 0 (by simp [encode])
    have hb2 : read (o + 2) = .ok b2 := hbyte 2 (by simp [encode])
    simp [instLen, hb0, opTag_labelOrEnd hx, hb2, hsel, Instr.length]
  | _ =>
    have hb0 := hbyte 0 (by simp [encode])
    simp only [Nat.add_zero] at hb0
    simp [instLen, hb0, encode, Instr.length]

/-- The decoder gives the instruction whose bytes stand at `o`, ended by what follows them (R46, R50). -/
theorem decodeAt_encode {read : Nat → Except Reject Byte} {runMax : Byte} {limit o n : Nat} {i : Instr} {rest : List Byte}
    (hwf : i.wf runMax = true) (hend : endedBy runMax i rest) (hread : readRange read n o = .ok (encode i ++ rest))
    (hfit : o + n ≤ limit) : decodeAt read runMax limit o = .ok i := by
  have hlen : (encode i).length = i.length := encode_length hwf
  have hn : (encode i ++ rest).length = n := (readRange_ok_iff.1 hread).1
  have hover : ¬ limit < o + i.length := by
    rw [List.length_append] at hn
    omega
  have hbytes : readRange read i.length o = .ok (encode i) := hlen ▸ readRange_append hread
  simp only [decodeAt, instLen_encode hwf hend hread hfit, hover, hbytes, assemble_encode hwf, if_false]

theorem listRead_ok_iff {bs : List Byte} {a : Nat} {b : Byte} : listRead bs a = .ok b ↔ bs[a]? = some b := by
  unfold listRead
  cases bs[a]? <;> simp

/-- A plain list read from its start on gives its first bytes. -/
theorem readRange_listRead_iff {bs cs : List Byte} {n : Nat} :
    readRange (listRead bs) n 0 = .ok cs ↔ cs.length = n ∧ cs <+: bs := by
  rw [readRange_ok_iff, List.prefix_iff_getElem?]
  simp [listRead_ok_iff]

/-- Settles O1: `InstLen` resolves the length of the encoding, and the bytes of that length split back into the fields. -/
theorem decodeEncodeRoundTrip : Obligations.DecodeEncodeRoundTrip := by
  intro runMax i rest hwf hend
  have hread : readRange (listRead (encode i ++ rest)) (encode i ++ rest).length 0 = .ok (encode i ++ rest) :=
    readRange_listRead_iff.2 ⟨rfl, List.prefix_rfl⟩
  have hdecode : decodeAt (listRead (encode i ++ rest)) runMax (encode i ++ rest).length 0 = .ok i :=
    decodeAt_encode hwf hend hread (Nat.zero_add _).le
  simp only [decode, hdecode, ← encode_length hwf, List.drop_left]

/-- Settles O24: the Program's bytes from `pc` on are what the decoder reads, and it reads the instruction. -/
theorem stepRunsEncodedBytes : Obligations.StepRunsEncodedBytes := by
  intro s i bs rest hphase hrst howed hholds hbytes hwf hend
  have hlen : bs.length = s.len := hholds.1
  have hpc : s.pc < s.len := by
    by_contra hover
    rw [List.drop_eq_nil_of_le (by omega)] at hbytes
    exact encode_ne_nil i (List.append_eq_nil_iff.1 hbytes.symm).1
  have hread : readRange (memRead s) (s.len - s.pc) s.pc = .ok (encode i ++ rest) := by
    rw [hholds.readRange_eq (by omega), ← hbytes, List.take_of_length_le (by simp [hlen])]
  have hfetch : fetch s = .ok i := decodeAt_encode hwf hend hread (by omega)
  rw [step_of_pack hphase hrst]
  simp only [packStep, passMoment_pc, passMoment_len, hpc, passMoment_instLeft, howed, fetch_passMoment, hfetch, if_true]

/-! ### What the decoder gives -/

/-- The bytes that `InstLen` counts after the opcode byte of a `DIGITS` lie in the run range (R72). -/
theorem inRun_of_instLen_digits {read : Nat → Except Reject Byte} {runMax : Byte} {limit o n : Nat} {bs : List Byte}
    (hlen : instLen read runMax limit o = .ok n) (hbs : readRange read n o = .ok bs)
    (htag : opTag (bs.getD 0 0) = .digits) : ∀ r ∈ bs.drop 1, inRun runMax r = true := by
  have hb0 : read o = .ok (bs.getD 0 0) := readRange_getD hbs (instLen_pos hlen)
  obtain ⟨hn, hbyte⟩ := readRange_ok_iff.1 hbs
  simp only [instLen, hb0, htag] at hlen
  split at hlen
  · cases hlen
  · rename_i k hscan
    obtain ⟨-, hrun, -⟩ := scanRun_ok_iff.1 hscan
    have hk : 1 + k = n := Except.ok.inj hlen
    intro r hr
    obtain ⟨j, hj, rfl⟩ := List.mem_drop_iff_getElem.1 hr
    obtain ⟨c, hc, hin⟩ := hrun j (by omega)
    rw [Nat.add_assoc, hbyte (1 + j) (by omega)] at hc
    rwa [Except.ok.inj hc]

/-- All that a decoded instruction says of the bytes at `o`: it is well-formed, `InstLen` resolves its length, and its
encoding is what stands there, before the end (R46, R50, R70). -/
theorem decodeAt_spec {read : Nat → Except Reject Byte} {runMax : Byte} {limit o : Nat} {i : Instr}
    (h : decodeAt read runMax limit o = .ok i) :
    i.wf runMax = true ∧ instLen read runMax limit o = .ok i.length ∧ readRange read i.length o = .ok (encode i) ∧
      o + i.length ≤ limit := by
  obtain ⟨n, bs, hlen, hfit, hbs, rfl⟩ := decodeAt_ok h
  have hn : (assemble bs).length = n := assemble_length hlen hbs
  have hbytes : (assemble bs).length = bs.length := hn.trans (readRange_ok_iff.1 hbs).1.symm
  rw [hn, encode_assemble hbytes]
  exact ⟨assemble_wf hbytes (inRun_of_instLen_digits hlen hbs), hlen, hbs, hfit⟩

/-- The instruction decoded from a list, and the list cut after its encoding. -/
theorem decode_ok {runMax : Byte} {bs rest : List Byte} {i : Instr} (h : decode runMax bs = .ok (i, rest)) :
    i.wf runMax = true ∧ encode i ++ rest = bs := by
  unfold decode at h
  split at h
  · cases h
  · rename_i i' hdecode
    cases h
    obtain ⟨hwf, -, hread, -⟩ := decodeAt_spec hdecode
    obtain ⟨hlen, hprefix⟩ := readRange_listRead_iff.1 hread
    exact ⟨hwf, by rw [← hlen]; exact (List.prefix_append_drop hprefix).symm⟩

/-- Settles O2: the decoder splits exactly the bytes that `InstLen` counts, and they are the encoding. -/
theorem decodedInstructionReencodes : Obligations.DecodedInstructionReencodes :=
  fun _ _ _ _ => decode_ok

/-- Settles O4: the bytes begin with the encoding of the decoded instruction, whose class the opcode map gives. -/
theorem decodedClassIsOpcodeMapClass : Obligations.DecodedClassIsOpcodeMapClass := by
  intro runMax bs rest i h
  obtain ⟨hwf, rfl⟩ := decode_ok h
  exact (classOf_encode hwf rest).symm

/-- Settles O13: the fetched instruction is the decoder's, so it has the length resolved and that of its encoding. -/
theorem instLenMatchesDecodedInstruction : Obligations.InstLenMatchesDecodedInstruction := by
  intro s i h
  obtain ⟨hwf, hlen, -, hfit⟩ := decodeAt_spec h
  exact ⟨hlen, encode_length hwf, hfit⟩

end Sys2Proof.Machine
end

section
/-!
The opcode table against the opcode map (spec/30_encoding.md R48, R59).
-/
namespace Sys2Proof

/-- No row of the table looks at more of a window than `b0` and the top bit of `b2` (R59). -/
theorem tableRows_mask {r : TableRow} (h : r ∈ tableRows) : (0xFF#8 ++ 0x00#8 ++ 0x80#8 : BitVec 24) &&& r.mask = r.mask := by
  revert r; decide

theorem rowSelects_eq_topBit {r : TableRow} (h : r ∈ tableRows) (b0 b1 b2 : Byte) :
    rowSelects b0 b1 b2 r = rowSelects b0 0x00#8 (b2 &&& 0x80#8) r := by
  have hwindow : (b0 ++ b1 ++ b2 : BitVec 24) &&& (0xFF#8 ++ 0x00#8 ++ 0x80#8) = b0 ++ 0x00#8 ++ (b2 &&& 0x80#8) := by
    rw [BitVec.and_append, BitVec.and_append, BitVec.and_zero, show (0xFF#8 : Byte) = BitVec.allOnes 8 from rfl,
      BitVec.and_allOnes]
  unfold rowSelects
  rw [← hwindow, BitVec.and_assoc, tableRows_mask h]

theorem classOf_eq_topBit (b0 b2 : Byte) : classOf b0 b2 = classOf b0 (b2 &&& 0x80#8) := by
  have hbit : highBit (b2 &&& 0x80#8) = highBit b2 := by revert b2; decide
  unfold classOf
  rw [hbit]

/-- The classes of the rows that select a window, in the table's order. -/
def selectedClasses (b0 b1 b2 : Byte) : List OpClass := (tableRows.filter (rowSelects b0 b1 b2)).map TableRow.opClass

theorem selectedClasses_eq_topBit (b0 b1 b2 : Byte) :
    selectedClasses b0 b1 b2 = selectedClasses b0 0x00#8 (b2 &&& 0x80#8) :=
  congrArg (List.map TableRow.opClass) (List.filter_congr fun _ hr => rowSelects_eq_topBit hr b0 b1 b2)

theorem selectedClasses_topBit_clear (b0 : Byte) : selectedClasses b0 0x00#8 0x00#8 = [classOf b0 0x00#8] := by
  revert b0; decide

theorem selectedClasses_topBit_set (b0 : Byte) : selectedClasses b0 0x00#8 0x80#8 = [classOf b0 0x80#8] := by
  revert b0; decide

/-- One row selects each window, and its class is the opcode map's (R48, R59). -/
theorem selectedClasses_eq (b0 b1 b2 : Byte) : selectedClasses b0 b1 b2 = [classOf b0 b2] := by
  have htop : b2 &&& 0x80#8 = 0x00#8 ∨ b2 &&& 0x80#8 = 0x80#8 := by revert b2; decide
  rw [selectedClasses_eq_topBit, classOf_eq_topBit]
  obtain hclear | hset := htop
  · rw [hclear, selectedClasses_topBit_clear]
  · rw [hset, selectedClasses_topBit_set]

/-- Settles O3: the rows that select a window are a list of one, of the class of the opcode map. -/
theorem opcodeTableSelectsOneRow : Obligations.OpcodeTableSelectsOneRow := by
  intro b0 b1 b2
  obtain ⟨r, hfilter, hclass⟩ := List.map_eq_singleton_iff.1 (selectedClasses_eq b0 b1 b2)
  have hselected : ∀ r', r' ∈ tableRows ∧ rowSelects b0 b1 b2 r' = true ↔ r' = r := fun r' => by
    rw [← List.mem_filter, hfilter, List.mem_singleton]
  obtain ⟨hmem, hsel⟩ := (hselected r).2 rfl
  exact ⟨r, hmem, hsel, hclass, fun r' hmem' hsel' => (hselected r').1 ⟨hmem', hsel'⟩⟩

end Sys2Proof
end

section
/-!
The values of the header bytes of a row record (spec/30_encoding.md R52 to R54).
-/
namespace Sys2Proof.Machine

theorem toNat_append_nibbles (h x : BitVec 4) : (h ++ x : Byte).toNat = 16 * h.toNat + x.toNat := by
  rw [BitVec.toNat_append, ← Nat.shiftLeft_add_eq_or_of_lt x.isLt, Nat.shiftLeft_eq, Nat.mul_comm]

/-- Settles O46: each byte of two fields is 16 times the high one and the low one, and no field overflows. -/
theorem headerByteValues : Obligations.HeaderByteValues := by
  refine ⟨fun p hp => ?_, fun q => toNat_append_nibbles Config.typeCode q, fun ns ne hns hne => ?_⟩
  · exact (BitVec.toNat_ofNat _ _).trans (Nat.mod_eq_of_lt (by omega))
  · rw [overflowByte, toNat_append_nibbles, BitVec.toNat_ofNat, BitVec.toNat_ofNat, Nat.mod_eq_of_lt (by omega),
      Nat.mod_eq_of_lt (by omega)]

end Sys2Proof.Machine
end

section
/-!
The normaliser: what each branch of `Normalise()` answers, that the terminator written again changes nothing, and that the
Program it makes is `normalised bs` (spec/40_normalizer.md R60 to R65).
-/
namespace Sys2Proof.Machine

/-! ### The canonical terminator in the buffer (R57, R62) -/

/-- The canonical terminator stands at `a`. -/
structure TerminatedAt (m : Memory) (a : Nat) : Prop where
  first : memGet m a = some 0xC0#8
  middle : memGet m (a + 1) = some 0x00#8
  last : memGet m (a + 2) = some 0x2F#8

theorem memGet_terminated_of_lt (m : Memory) {a c : Nat} (h : c < a) : memGet (terminated m a) c = memGet m c := by
  rw [terminated, memGet_memSet_other _ _ (by omega), memGet_memSet_other _ _ (by omega),
    memGet_memSet_other _ _ (by omega)]

theorem terminatedAt_terminated (m : Memory) (a : Nat) : TerminatedAt (terminated m a) a where
  first := by
    rw [terminated, memGet_memSet_other _ _ (by omega), memGet_memSet_other _ _ (by omega), memGet_memSet_same]
  middle := by rw [terminated, memGet_memSet_other _ _ (by omega), memGet_memSet_same]
  last := memGet_memSet_same _ _ _

/-- Writing the byte that stands at `a` again changes no read. -/
theorem memGet_memSet_of_memGet {m : Memory} {a : Nat} {v : Byte} (h : memGet m a = some v) (c : Nat) :
    memGet (memSet m a v) c = memGet m c := by
  by_cases hc : c = a
  · rw [hc, memGet_memSet_same, h]
  · exact memGet_memSet_other m v hc

namespace TerminatedAt

variable {m : Memory} {a : Nat}

/-- The terminator written where it stands changes no read (R65). -/
theorem memGet_terminated (h : TerminatedAt m a) (c : Nat) : memGet (terminated m a) c = memGet m c := by
  have h1 : ∀ c, memGet (memSet m a 0xC0#8) c = memGet m c := memGet_memSet_of_memGet h.first
  have h2 : ∀ c, memGet (memSet (memSet m a 0xC0#8) (a + 1) 0x00#8) c = memGet m c := fun c =>
    (memGet_memSet_of_memGet ((h1 _).trans h.middle) c).trans (h1 c)
  exact (memGet_memSet_of_memGet ((h2 _).trans h.last) c).trans (h2 c)

/-- In canonical form it leaves the same buffer. -/
theorem terminated_eq (h : TerminatedAt m a) (hwf : m.wf) : terminated m a = m := by
  rw [terminated, memSet_of_memGet hwf h.first, memSet_of_memGet hwf h.middle, memSet_of_memGet hwf h.last]

end TerminatedAt

/-! ### The two branches -/

theorem tailTest_iff {first last : Byte} :
    tailTest first last = true ↔ first.toNat / 16 = 0xC ∧ last.toNat < 0x80 := by
  simp [tailTest, highBit_eq, ← toNat_hiNibble, ← BitVec.toNat_inj]

/-- The overwrite branch (R62). -/
theorem normalise_of_overwrite {s : State} (hends : endsInTerminator s = .ok true)
    (hstored : s.len ≤ s.params.bufBytes) :
    normalise s = .ok { s with prog := terminated s.prog (s.len - 3) } := by
  have hlen : 3 ≤ s.len := three_le_len_of_endsInTerminator hends
  simp only [normalise, hends]
  exact memWrite3_of_lt _ _ _ (by omega)

/-- The append branch (R63). -/
theorem normalise_of_append {s : State} (hends : endsInTerminator s = .ok false)
    (hstored : s.len + 3 ≤ s.params.bufBytes) :
    normalise s = .ok { s with prog := terminated s.prog s.len, len := s.len + 3 } := by
  simp only [normalise, hends, appendTail, memWrite3_of_lt _ _ _ (show s.len + 2 < s.params.bufBytes by omega),
    terminated]

/-- Every answer of `Normalise()`: the terminator is written at `L - 3` or at `L`, inside the storage, and `L` is then the
end of it. -/
theorem normalise_ok_at {s t : State} (h : normalise s = .ok t) :
    ∃ a, (a + 3 = s.len ∨ a = s.len) ∧ a + 3 ≤ s.params.bufBytes ∧
      t = { s with prog := terminated s.prog a, len := a + 3 } := by
  obtain ⟨hends, hover⟩ | ⟨hends, happ⟩ := normalise_ok h
  · have hlen : 3 ≤ s.len := three_le_len_of_endsInTerminator hends
    obtain ⟨ha, rfl⟩ := memWrite3_ok hover
    exact ⟨s.len - 3, .inl (by omega), ha, by rw [Nat.sub_add_cancel hlen]; rfl⟩
  · obtain ⟨a, ha, hstored, rfl⟩ := normalise_ok_terminated h
    unfold appendTail at happ
    split at happ
    · cases happ
    · rename_i u hu
      obtain ⟨-, rfl⟩ := memWrite3_ok hu
      have hlen : s.len + 3 = a + 3 := congrArg State.len (Except.ok.inj happ)
      exact ⟨a, .inr (by omega), hstored, rfl⟩

/-- A Program that ends in the canonical terminator takes the overwrite branch, which writes what stands there (R65). -/
theorem normalise_of_terminatedAt {s : State} {a : Nat} (h : TerminatedAt s.prog a) (hlen : s.len = a + 3)
    (hstored : s.len ≤ s.params.bufBytes) : normalise s = .ok { s with prog := terminated s.prog a } := by
  have hends : endsInTerminator s = .ok true := by
    simp only [endsInTerminator, progByte, hlen, Nat.add_sub_cancel, show a + 3 - 1 = a + 2 from rfl, h.first, h.last,
      if_neg (Nat.not_lt.2 (Nat.le_add_left 3 a))]
    rfl
  rw [normalise_of_overwrite hends hstored, hlen, Nat.add_sub_cancel]

theorem normalise_of_terminatedAt_reads {s : State} {a : Nat} (h : TerminatedAt s.prog a) (hlen : s.len = a + 3)
    (hstored : s.len ≤ s.params.bufBytes) :
    (∃ m, normalise s = .ok { s with prog := m } ∧ ∀ c, memGet m c = memGet s.prog c) ∧
      (s.prog.wf → normalise s = .ok s) := by
  have hnormal := normalise_of_terminatedAt h hlen hstored
  exact ⟨⟨_, hnormal, h.memGet_terminated⟩, fun hwf => by rw [hnormal, h.terminated_eq hwf]⟩

/-! ### The branches on the bytes of the Program -/

namespace Holds

variable {s : State} {bs : List Byte}

theorem terminatedAt {pre : List Byte} (h : Holds s (pre ++ Config.term)) :
    TerminatedAt s.prog pre.length ∧ s.len = pre.length + 3 := by
  obtain ⟨hlen, hbytes⟩ := h
  have hlen : s.len = pre.length + 3 := by rw [← hlen, List.length_append]; rfl
  refine ⟨⟨?_, ?_, ?_⟩, hlen⟩ <;>
    rw [hbytes _ (by omega), List.getElem?_append_right (by omega)] <;>
    simp [Config.term]

/-- The decision, on the first and the last of the Program's last three bytes (R61). -/
theorem endsInTerminator_eq_tailTest (h : Holds s bs) {f l : Byte} (hlen : 3 ≤ s.len) (hf : bs[s.len - 3]? = some f)
    (hl : bs[s.len - 1]? = some l) : endsInTerminator s = .ok (tailTest f l) := by
  obtain ⟨-, hbytes⟩ := h
  simp only [endsInTerminator, progByte, hbytes (s.len - 3) (by omega), hbytes (s.len - 1) (by omega), hf, hl,
    if_neg (Nat.not_lt.2 hlen)]

/-- The overwrite branch keeps the bytes before the last three (R62). -/
theorem normalise_overwrite (h : Holds s bs) (hcap : s.len ≤ s.params.cap) (hends : endsInTerminator s = .ok true) :
    normalise s = .ok { s with prog := Machine.terminated s.prog (s.len - 3) } ∧
      Holds { s with prog := Machine.terminated s.prog (s.len - 3) } (bs.take (s.len - 3) ++ Config.term) := by
  have hholds := h.terminated (Nat.sub_le s.len 3)
  rw [Nat.sub_add_cancel (three_le_len_of_endsInTerminator hends)] at hholds
  exact ⟨normalise_of_overwrite hends (by unfold Params.bufBytes; omega), hholds⟩

/-- The append branch keeps all of them (R63). -/
theorem normalise_append (h : Holds s bs) (hcap : s.len ≤ s.params.cap) (hends : endsInTerminator s = .ok false) :
    normalise s = .ok { s with prog := Machine.terminated s.prog s.len, len := s.len + 3 } ∧
      Holds { s with prog := Machine.terminated s.prog s.len, len := s.len + 3 } (bs ++ Config.term) := by
  have hholds := h.terminated le_rfl
  rw [List.take_of_length_le h.1.le] at hholds
  exact ⟨normalise_of_append hends (Nat.add_le_add_right hcap 3), hholds⟩

/-- The decision of `normalised` is the machine's (R61, R64). -/
theorem endsInTerminator_eq (h : Holds s bs) : endsInTerminator s =
    .ok (decide (3 ≤ bs.length ∧ tailTest (bs.getD (bs.length - 3) 0) (bs.getD (bs.length - 1) 0))) := by
  have hlen : bs.length = s.len := h.1
  by_cases h3 : 3 ≤ s.len
  · rw [hlen, h.endsInTerminator_eq_tailTest h3 (List.getElem?_eq_getElem (by omega))
      (List.getElem?_eq_getElem (by omega)), List.getD_eq_getElem _ _ (by omega), List.getD_eq_getElem _ _ (by omega)]
    simp only [h3, true_and, Bool.decide_eq_true]
  · simp [endsInTerminator, hlen, h3, Nat.not_le.1 h3]

/-- `Normalise()` makes of the Program `bs` the Program `normalised bs` and changes no register but `L` (R60). -/
theorem normalise_normalised (h : Holds s bs) (hcap : s.len ≤ s.params.cap) :
    ∃ t, normalise s = .ok t ∧ Holds t (normalised bs) ∧ t = { s with prog := t.prog, len := t.len } := by
  have hends := h.endsInTerminator_eq
  unfold normalised
  split
  next htail =>
    rw [decide_eq_true htail] at hends
    obtain ⟨hnormal, hholds⟩ := h.normalise_overwrite hcap hends
    exact ⟨_, hnormal, h.1 ▸ hholds, rfl⟩
  next htail =>
    rw [decide_eq_false htail] at hends
    obtain ⟨hnormal, hholds⟩ := h.normalise_append hcap hends
    exact ⟨_, hnormal, hholds, rfl⟩

end Holds

theorem finish_of_normalise {s t : State} (hphase : s.phase = .load) (h : normalise s = .ok t) :
    finish s = .next { t with phase := .pack } := by
  rw [finish, if_pos hphase, h]

/-! ### The statements -/

/-- Settles O57: the machine's decision is that of `normalised`, and each branch writes the terminator that `normalised`
puts there. -/
theorem normaliseComputesNormalised : Obligations.NormaliseComputesNormalised :=
  fun _ _ hholds hcap => hholds.normalise_normalised hcap

/-- Settles O31: `FINISH` is the branch of `Normalise()` that the tail decides, and `phase` becomes `PACK`. -/
theorem finishNormalisesTail : Obligations.FinishNormalisesTail := by
  intro s bs hphase hholds hcap
  refine ⟨fun f l hlen hf hl hnibble hbit => ?_, fun htail => ?_⟩
  · have hends : endsInTerminator s = .ok true := by
      rw [hholds.endsInTerminator_eq_tailTest hlen hf hl, tailTest_iff.2 ⟨hnibble, hbit⟩]
    obtain ⟨hnormal, hnormalHolds⟩ := hholds.normalise_overwrite hcap hends
    have hfinish := finish_of_normalise hphase hnormal
    exact ⟨_, hfinish, hnormalHolds⟩
  · have hends : endsInTerminator s = .ok false := by
      by_cases hlen : s.len < 3
      · exact if_pos hlen
      · obtain hshort | ⟨f, l, hf, hl, hneither⟩ := htail
        · exact absurd hshort hlen
        · have htest : tailTest f l = false := Bool.eq_false_iff.2 fun htrue => by
            obtain ⟨hnibble, hbit⟩ := tailTest_iff.1 htrue
            omega
          rw [hholds.endsInTerminator_eq_tailTest (Nat.not_lt.1 hlen) hf hl, htest]
    obtain ⟨hnormal, hnormalHolds⟩ := hholds.normalise_append hcap hends
    have hfinish := finish_of_normalise hphase hnormal
    exact ⟨_, hfinish, hnormalHolds⟩

/-- Settles O33: any answer of `Normalise()` has the terminator at the end of the Program, and from such a state it writes
the three bytes that stand there. -/
theorem normalisationIsIdempotent : Obligations.NormalisationIsIdempotent := by
  intro s
  refine ⟨fun pre hholds hstored => ?_, fun t hnormal => ?_⟩
  · obtain ⟨hterm, hlen⟩ := hholds.terminatedAt
    exact normalise_of_terminatedAt_reads hterm hlen hstored
  · have hwf : s.prog.wf → t.prog.wf := normalise_wf hnormal
    obtain ⟨a, ha, hstored, rfl⟩ := normalise_ok_at hnormal
    have hterm := terminatedAt_terminated s.prog a
    obtain ⟨hreads, hsame⟩ :=
      normalise_of_terminatedAt_reads (s := { s with prog := terminated s.prog a, len := a + 3 }) hterm rfl hstored
    exact ⟨⟨Nat.le_add_left 3 a, by dsimp only; omega, rfl, hterm.first, hterm.middle, hterm.last,
      fun c hc => memGet_terminated_of_lt s.prog hc⟩, hreads, fun h => hsame (hwf h)⟩

end Sys2Proof.Machine
end

section
/-!
The reference stream, from its front: what the tags, the pieces and the rows of a Program are when one more instruction or
one more row is added at the end (spec/42_row_packer.md R110).
-/
namespace Sys2Proof.Machine

/-! ### The tags of the bytes -/

theorem byteTags_append (ms ns : List Nat) : byteTags (ms ++ ns) = byteTags ms ++ byteTags ns := by
  induction ms with
  | nil => rfl
  | cons m ms ih => simp only [List.cons_append, byteTags, ih, List.append_assoc]

@[simp] theorem byteTags_length (ns : List Nat) : (byteTags ns).length = ns.sum := by
  induction ns with
  | nil => rfl
  | cons n ns ih => simp [byteTags, ih]

/-- Byte `i` of the last instruction: `i` bytes of it stand before, the rest after. -/
theorem byteTags_concat_getElem? (done : List Nat) {n i : Nat} (h : i < n) :
    (byteTags (done ++ [n]))[done.sum + i]? = some (i, n - 1 - i) := by
  rw [byteTags_append, List.getElem?_append_right (by simp), byteTags_length, Nat.add_sub_cancel_left]
  simp [byteTags, h]

/-- The tags of the bytes of instructions resolved before stay as they are. -/
theorem byteTags_append_getElem? {done : List Nat} (ns : List Nat) {a : Nat} (h : a < done.sum) :
    (byteTags (done ++ ns))[a]? = (byteTags done)[a]? := by
  rw [byteTags_append, List.getElem?_append_left (by simpa using h)]

/-- The last byte of the last instruction has none of its bytes after it. -/
theorem exists_byteTags_last {done : List Nat} (hpos : ∀ n ∈ done, 1 ≤ n) (hsum : 1 ≤ done.sum) :
    ∃ before, (byteTags done)[done.sum - 1]? = some (before, 0) := by
  obtain rfl | ⟨front, n, rfl⟩ := List.eq_nil_or_concat done
  · cases hsum
  · rw [List.concat_eq_append] at hpos ⊢
    have hn : 1 ≤ n := hpos n (by simp)
    refine ⟨n - 1, ?_⟩
    have hlast := byteTags_concat_getElem? front (show n - 1 < n by omega)
    rwa [Nat.sub_self, ← Nat.add_sub_assoc hn, ← List.sum_singleton (x := n), ← List.sum_append] at hlast

/-! ### The pieces -/

/-- Bytes of the Program, each with its tag: a row's, or those still to be cut into rows. -/
abbrev Piece := List (Byte × (Nat × Nat))

/-- The bytes of the Program with their tags, as far as instructions are resolved. -/
def tagged (bs : List Byte) (done : List Nat) : Piece := bs.zip (byteTags done)

/-- The `p` bytes from `a` on with their tags: the piece of a row. -/
def pieceAt (bs : List Byte) (done : List Nat) (a p : Nat) : Piece :=
  ((bs.drop a).take p).zip (((byteTags done).drop a).take p)

theorem pieceAt_eq (bs : List Byte) (done : List Nat) (a p : Nat) :
    pieceAt bs done a p = ((tagged bs done).drop a).take p := by
  simp only [pieceAt, tagged, List.zip_eq_zipWith, List.drop_zipWith, List.take_zipWith]

/-- Resolving one more instruction leaves the tagged bytes before it. -/
theorem tagged_append_take (bs : List Byte) {done : List Nat} (ns : List Nat) {m : Nat} (h : m ≤ done.sum) :
    (tagged bs (done ++ ns)).take m = (tagged bs done).take m := by
  simp only [tagged, byteTags_append, List.zip_eq_zipWith, List.take_zipWith,
    List.take_append_of_le_length (show m ≤ (byteTags done).length by simpa using h)]

section

variable {bs : List Byte} {done : List Nat} {a p : Nat}

theorem pieceAt_length (hsum : done.sum ≤ bs.length) (hfit : a + p ≤ done.sum) : (pieceAt bs done a p).length = p := by
  simp only [pieceAt, List.length_zip, List.length_take, List.length_drop, byteTags_length]
  omega

theorem pieceAt_map_fst (hfit : a + p ≤ done.sum) : (pieceAt bs done a p).map Prod.fst = (bs.drop a).take p :=
  List.map_fst_zip (by simp; omega)

theorem pieceAt_map_snd (hsum : done.sum ≤ bs.length) :
    (pieceAt bs done a p).map Prod.snd = ((byteTags done).drop a).take p :=
  List.map_snd_zip (by simp; omega)

theorem pieceAt_head (hsum : done.sum ≤ bs.length) (hp : 1 ≤ p) :
    (pieceAt bs done a p).head?.map Prod.snd = (byteTags done)[a]? := by
  rw [← List.head?_map, pieceAt_map_snd hsum, List.head?_take, if_neg (by omega), List.head?_drop]

theorem pieceAt_getLast (hsum : done.sum ≤ bs.length) (hfit : a + p ≤ done.sum) (hp : 1 ≤ p) :
    (pieceAt bs done a p).getLast?.map Prod.snd = (byteTags done)[a + p - 1]? := by
  rw [← List.getLast?_map, pieceAt_map_snd hsum, List.getLast?_eq_getElem?, List.length_take, List.length_drop,
    byteTags_length, Nat.min_eq_left (by omega), List.getElem?_take, if_pos (by omega), List.getElem?_drop,
    Nat.add_sub_assoc hp]

end

@[simp] theorem cut13_nil {α : Type} (fuel : Nat) : cut13 fuel ([] : List α) = [] := by
  cases fuel <;> rfl

theorem cut13_succ {α : Type} (fuel : Nat) {xs : List α} (h : xs ≠ []) :
    cut13 (fuel + 1) xs = xs.take 13 :: cut13 fuel (xs.drop 13) := by
  cases xs with
  | nil => exact absurd rfl h
  | cons x xs => rfl

/-- A list that is pieces of 13 and then `rest` is cut into these pieces and the pieces of `rest`. -/
theorem cut13_flatten_append {α : Type} {pieces : List (List α)} (hfull : ∀ piece ∈ pieces, piece.length = 13)
    (rest : List α) (fuel : Nat) : cut13 (pieces.length + fuel) (pieces.flatten ++ rest) = pieces ++ cut13 fuel rest := by
  induction pieces with
  | nil => simp
  | cons piece pieces ih =>
    obtain ⟨hpiece, hpieces⟩ := List.forall_mem_cons.1 hfull
    have hne : piece ++ (pieces.flatten ++ rest) ≠ [] := fun h => by
      rw [(List.append_eq_nil_iff.1 h).1] at hpiece
      cases hpiece
    rw [List.length_cons, Nat.add_right_comm, List.flatten_cons, List.append_assoc, cut13_succ _ hne,
      List.take_left' hpiece, List.drop_left' hpiece, ih hpieces, List.cons_append]

/-- A last piece that does not fill a row. -/
theorem cut13_of_length_le {α : Type} {fuel : Nat} {xs : List α} (hpos : 1 ≤ xs.length) (hle : xs.length ≤ 13)
    (hfuel : 1 ≤ fuel) : cut13 fuel xs = [xs] := by
  obtain ⟨fuel, rfl⟩ := Nat.exists_eq_add_of_le' hfuel
  rw [cut13_succ _ (List.length_pos_iff.1 hpos), List.take_of_length_le hle, List.drop_of_length_le hle, cut13_nil]

/-! ### The rows -/

theorem referenceRows_append (k : Nat) (c : Byte) (pieces : List Piece) (piece : Piece) :
    referenceRows k c (pieces ++ [piece]) = referenceRows k c pieces ++
      [referenceRow (k + pieces.length) (lastChecksum c (referenceRows k c pieces)) piece] := by
  induction pieces generalizing k c with
  | nil => rfl
  | cons q pieces ih =>
    simp only [List.cons_append, referenceRows, ih, lastChecksum, List.length_cons, Nat.add_assoc, Nat.add_comm 1]

/-- The row that the emitter makes is the reference row of its piece when its counts are those of the tags at the piece's
two ends. -/
theorem makeRow_eq_referenceRow {s : State} {bs : List Byte} {done : List Nat} {p k ne : Nat} (hp : 1 ≤ p)
    (hfit : s.startPc + p ≤ done.sum) (hsum : done.sum ≤ bs.length) (hseq : s.sequence = BitVec.ofNat 4 k)
    (hns : s.nStart = startCount (byteTags done)[s.startPc]?)
    (hne : ne = endCount p (byteTags done)[s.startPc + p - 1]?) :
    makeRow s ((bs.drop s.startPc).take p) s.nStart ne =
      referenceRow k s.checksum (pieceAt bs done s.startPc p) := by
  simp only [makeRow, referenceRow, pieceAt_length hsum hfit, pieceAt_map_fst hfit, pieceAt_head hsum hp,
    pieceAt_getLast hsum hfit hp, ← hns, ← hne, hseq]

end Sys2Proof.Machine
end

section
/-!
The lengths of a Program's instructions, as `measure` gives them from a list of bytes and as the machine resolves them one
after the other at `pc` (spec/41_length_decoder.md R70, spec/42_row_packer.md R103).
-/
namespace Sys2Proof.Machine

/-! ### Decoding in the Program and decoding what is left of it -/

section

variable (read : Nat → Except Reject Byte) (runMax : Byte) (d : Nat)

theorem scanRun_add (fuel a : Nat) :
    scanRun read runMax fuel (d + a) = scanRun (fun k => read (d + k)) runMax fuel a := by
  induction fuel generalizing a with
  | zero => rfl
  | succ fuel ih => simp only [scanRun, Nat.add_assoc, ih]

theorem readRange_add (n a : Nat) : readRange read n (d + a) = readRange (fun k => read (d + k)) n a := by
  induction n generalizing a with
  | zero => rfl
  | succ n ih => simp only [readRange, Nat.add_assoc, ih]

theorem instLen_add (limit o : Nat) :
    instLen read runMax (d + limit) (d + o) = instLen (fun k => read (d + k)) runMax limit o := by
  simp only [instLen, Nat.add_assoc, scanRun_add, Nat.add_sub_add_left]

/-- The decoder depends on where the bytes stand relative to `pc` and `L` only. -/
theorem decodeAt_add (limit o : Nat) :
    decodeAt read runMax (d + limit) (d + o) = decodeAt (fun k => read (d + k)) runMax limit o := by
  simp only [decodeAt, instLen_add, readRange_add, Nat.add_assoc, Nat.add_lt_add_iff_left]

end

namespace Holds

variable {s : State} {bs : List Byte}

theorem memRead_eq_listRead (h : Holds s bs) : memRead s = listRead bs := by
  obtain ⟨hlen, hbytes⟩ := h
  funext a
  unfold memRead listRead
  by_cases ha : s.len ≤ a
  · rw [if_pos ha, List.getElem?_eq_none (by omega)]
  · rw [if_neg ha, hbytes a (Nat.not_le.1 ha), List.getElem?_eq_getElem (by omega)]

/-- `fetch` decodes what is left of the Program from `pc` on. -/
theorem fetch_eq (h : Holds s bs) (hpc : s.pc ≤ s.len) :
    fetch s = decodeAt (listRead (bs.drop s.pc)) s.params.digitRunMax (bs.drop s.pc).length 0 := by
  have hlimit : s.len = s.pc + (bs.drop s.pc).length := by rw [List.length_drop, h.1]; omega
  have hread : (fun k => listRead bs (s.pc + k)) = listRead (bs.drop s.pc) := by
    funext k
    simp only [listRead, List.getElem?_drop]
  unfold fetch
  rw [h.memRead_eq_listRead, hlimit]
  exact hread ▸ decodeAt_add _ _ s.pc _ 0

theorem decode_of_fetch_ok {i : Instr} (h : Holds s bs) (hpc : s.pc ≤ s.len) (hi : fetch s = .ok i) :
    decode s.params.digitRunMax (bs.drop s.pc) = .ok (i, bs.drop (s.pc + i.length)) := by
  simp only [decode, ← h.fetch_eq hpc, hi, List.drop_drop]

theorem decode_of_fetch_error {e : Reject} (h : Holds s bs) (hpc : s.pc ≤ s.len) (he : fetch s = .error e) :
    decode s.params.digitRunMax (bs.drop s.pc) = .error e := by
  simp only [decode, ← h.fetch_eq hpc, he]

end Holds

/-! ### The instructions resolved so far -/

theorem measure_of_decode_ok {runMax : Byte} {bs rest : List Byte} {i : Instr} (hne : bs ≠ [])
    (h : decode runMax bs = .ok (i, rest)) (fuel : Nat) :
    measure runMax (fuel + 1) bs = (measure runMax fuel rest).map (i.length :: ·) := by
  cases bs with
  | nil => exact absurd rfl hne
  | cons b bs => simp only [measure, h]

theorem measure_of_decode_error {runMax : Byte} {bs : List Byte} {e : Reject} (hne : bs ≠ [])
    (h : decode runMax bs = .error e) (fuel : Nat) : measure runMax (fuel + 1) bs = none := by
  cases bs with
  | nil => exact absurd rfl hne
  | cons b bs => simp only [measure, h]

/-- The instructions at the front of the Program `bs` have the lengths `done`, and what is left of it is still to be
measured. -/
structure Resolved (runMax : Byte) (bs : List Byte) (done : List Nat) : Prop where
  pos : ∀ n ∈ done, 1 ≤ n
  measured : ∃ fuel, bs.length < done.sum + fuel ∧
    measure runMax (bs.length + 1) bs = (measure runMax fuel (bs.drop done.sum)).map (done ++ ·)

namespace Resolved

variable {runMax : Byte} {bs : List Byte} {done : List Nat}

theorem nil (runMax : Byte) (bs : List Byte) : Resolved runMax bs [] :=
  ⟨by simp, bs.length + 1, by simp, by simp⟩

/-- One more instruction resolved where the last one ends. -/
theorem concat (h : Resolved runMax bs done) {i : Instr} (hlt : done.sum < bs.length) (hpos : 1 ≤ i.length)
    (hdecode : decode runMax (bs.drop done.sum) = .ok (i, bs.drop (done.sum + i.length))) :
    Resolved runMax bs (done ++ [i.length]) := by
  obtain ⟨hdone, fuel, hfuel, hmeasure⟩ := h
  obtain ⟨fuel, rfl⟩ : ∃ f, fuel = f + 1 := Nat.exists_eq_add_of_le' (by omega)
  refine ⟨List.forall_mem_append.2 ⟨hdone, List.forall_mem_singleton.2 hpos⟩, fuel, ?_, ?_⟩
  · rw [List.sum_append, List.sum_singleton]
    omega
  · rw [hmeasure, measure_of_decode_ok (mt List.drop_eq_nil_iff.1 (Nat.not_le.2 hlt)) hdecode, Option.map_map,
      List.sum_append, List.sum_singleton]
    simp [Function.comp_def]

/-- At the end of the Program its measure is known. -/
theorem measure_of_end (h : Resolved runMax bs done) (hend : done.sum = bs.length) :
    measure runMax (bs.length + 1) bs = some done := by
  obtain ⟨-, fuel, hfuel, hmeasure⟩ := h
  obtain ⟨fuel, rfl⟩ : ∃ f, fuel = f + 1 := Nat.exists_eq_add_of_le' (by omega)
  rw [hmeasure, hend, List.drop_length]
  simp [measure]

/-- An instruction that does not decode leaves the Program without a measure (R103). -/
theorem measure_of_error (h : Resolved runMax bs done) (hlt : done.sum < bs.length) {e : Reject}
    (hdecode : decode runMax (bs.drop done.sum) = .error e) : measure runMax (bs.length + 1) bs = none := by
  obtain ⟨-, fuel, hfuel, hmeasure⟩ := h
  obtain ⟨fuel, rfl⟩ : ∃ f, fuel = f + 1 := Nat.exists_eq_add_of_le' (by omega)
  rw [hmeasure, measure_of_decode_error (mt List.drop_eq_nil_iff.1 (Nat.not_le.2 hlt)) hdecode, Option.map_none]

end Resolved

end Sys2Proof.Machine
end

section
/-!
The packer computes the reference stream: the rows put out are the reference rows of the pieces packed so far, and each
`STEP` keeps them so (spec/42_row_packer.md R100 to R110).
-/
namespace Sys2Proof.Machine

/-! ### The bytes owed: every field after the update -/

@[simp] theorem owing_params (n : Nat) (s : State) : (owing n s).params = s.params := openRow_params s
@[simp] theorem owing_prog (n : Nat) (s : State) : (owing n s).prog = s.prog := openRow_prog s
@[simp] theorem owing_len (n : Nat) (s : State) : (owing n s).len = s.len := openRow_len s
@[simp] theorem owing_pc (n : Nat) (s : State) : (owing n s).pc = s.pc := openRow_pc s
@[simp] theorem owing_spaceLeft (n : Nat) (s : State) : (owing n s).spaceLeft = s.spaceLeft := openRow_spaceLeft s
@[simp] theorem owing_instLeft (n : Nat) (s : State) : (owing n s).instLeft = n := rfl
@[simp] theorem owing_nStart (n : Nat) (s : State) :
    (owing n s).nStart = if s.spaceLeft = 13 then min 13 s.instLeft else s.nStart := openRow_nStart s
@[simp] theorem owing_startPc (n : Nat) (s : State) :
    (owing n s).startPc = if s.spaceLeft = 13 then s.pc else s.startPc := openRow_startPc s
@[simp] theorem owing_sequence (n : Nat) (s : State) : (owing n s).sequence = s.sequence := openRow_sequence s
@[simp] theorem owing_checksum (n : Nat) (s : State) : (owing n s).checksum = s.checksum := openRow_checksum s
@[simp] theorem owing_phase (n : Nat) (s : State) : (owing n s).phase = s.phase := openRow_phase s
@[simp] theorem owing_fault (n : Nat) (s : State) : (owing n s).fault = s.fault := openRow_fault s
@[simp] theorem owing_out (n : Nat) (s : State) : (owing n s).out = s.out := openRow_out s

@[simp] theorem bytesFit_owing (n : Nat) (s : State) : bytesFit (owing n s) = min s.spaceLeft n := by
  rw [bytesFit, owing_spaceLeft, owing_instLeft]

/-! ### The rows packed so far -/

/-- The rows put out are those of `pieces`, the tagged Program cut from its start, and the open row begins where they end
with the count of its first byte's tag. It holds between two `STEP`s, and between steps 3 and 4 of one. -/
structure Carries (bs : List Byte) (done : List Nat) (pieces : List Piece) (s : State) : Prop where
  full : ∀ piece ∈ pieces, piece.length = 13
  flatten_eq : pieces.flatten = (tagged bs done).take (13 * pieces.length)
  out : s.out = (referenceRows 0 0#8 pieces).flatMap rowBytes
  checksum : s.checksum = lastChecksum 0#8 (referenceRows 0 0#8 pieces)
  sequence : s.sequence = BitVec.ofNat 4 pieces.length
  sum_le : done.sum ≤ bs.length
  pc_le : s.pc ≤ done.sum
  row : s.pc + s.spaceLeft = 13 * pieces.length + 13
  spaceLeft_le : s.spaceLeft ≤ 13
  opened : s.spaceLeft < 13 →
    s.startPc = 13 * pieces.length ∧ s.nStart = startCount (byteTags done)[13 * pieces.length]?

/-- The next `n` bytes from `pc` on are the rest of an instruction of which `j` bytes stand before. -/
def Owes (done : List Nat) (pc j n : Nat) : Prop := ∀ i, i < n → (byteTags done)[pc + i]? = some (j + i, n - 1 - i)

theorem owes_zero (done : List Nat) (pc j : Nat) : Owes done pc j 0 := fun _ h => absurd h (Nat.not_lt_zero _)

theorem owes_concat (done : List Nat) (n : Nat) : Owes (done ++ [n]) done.sum 0 n := fun i h => by
  rw [byteTags_concat_getElem? done h, Nat.zero_add]

theorem Owes.drop {done : List Nat} {pc j n : Nat} (h : Owes done pc j n) (f : Nat) :
    Owes done (pc + f) (j + f) (n - f) := fun i hi => by
  rw [Nat.add_assoc, h (f + i) (by omega), Nat.add_assoc, show n - 1 - (f + i) = n - f - 1 - i by omega]

/-- The registers between two `STEP`s: the rows packed so far, and the bytes still owed of the last instruction, which
begin a row (R102). -/
structure Tracks (bs : List Byte) (done : List Nat) (pieces : List Piece) (j : Nat) (s : State) : Prop
    extends Carries bs done pieces s where
  spaceLeft_pos : 1 ≤ s.spaceLeft
  sum_eq : done.sum = s.pc + s.instLeft
  owes : Owes done s.pc j s.instLeft
  owed_begin_row : s.instLeft ≠ 0 → 1 ≤ j ∧ s.spaceLeft = 13

/-- The registers when step 1 is due with `n` bytes to place, of an instruction of which `j` bytes stand in earlier rows:
all of an instruction just resolved, or what is owed of one at the start of a row (R100, R102). -/
structure Due (bs : List Byte) (done : List Nat) (pieces : List Piece) (j n : Nat) (s : State) : Prop
    extends Carries bs done pieces s where
  spaceLeft_pos : 1 ≤ s.spaceLeft
  pos : 1 ≤ n
  sum_eq : done.sum = s.pc + n
  owes : Owes done s.pc j n
  begins : (j = 0 ∧ s.instLeft = 0) ∨ (1 ≤ j ∧ s.instLeft = n ∧ s.spaceLeft = 13)

theorem Fresh.tracks {s : State} (h : Fresh s) (bs : List Byte) : Tracks bs [] [] 0 s := by
  obtain ⟨hpc, hspace, hinst, hstart, hstartPc, hseq, hchecksum, hout⟩ := h
  refine { full := by simp, flatten_eq := rfl, out := hout, checksum := hchecksum, sequence := hseq,
           sum_le := Nat.zero_le _, pc_le := hpc.le, row := by rw [hpc, hspace]; rfl, spaceLeft_le := hspace.le,
           opened := by omega, spaceLeft_pos := by omega, sum_eq := by rw [hpc, hinst]; rfl,
           owes := by rw [hinst]; exact owes_zero _ _ _, owed_begin_row := fun howed => absurd hinst howed }

/-- The record of any range of the Program is put out (44_row_emitter.md R130). -/
theorem Holds.emitRow_eq {s : State} {bs : List Byte} (h : Holds s bs) {start p : Nat} (hfit : start + p ≤ s.len)
    (ns ne : Nat) : emitRow start p ns ne s = .ok (putRow (makeRow s ((bs.drop start).take p) ns ne) s) := by
  simp only [emitRow, h.readRange_eq hfit]

theorem closeRow_of_emitRow {fit : Nat} {s t : State} (hspace : s.spaceLeft = 0)
    (hemit : emitRow s.startPc 13 s.nStart (nEndOf fit s) s = .ok t) : closeRow fit s = .ok (nextRow t) := by
  rw [closeRow, if_pos hspace, hemit]

theorem flush_of_emitRow {s t : State} (hspace : s.spaceLeft < 13)
    (hemit : emitRow s.startPc (13 - s.spaceLeft) s.nStart 0 s = .ok t) : flush s = .next { t with phase := .done } := by
  rw [flush, if_pos hspace, hemit]

namespace Carries

variable {bs : List Byte} {done : List Nat} {pieces : List Piece} {s : State}

/-- One more instruction resolved leaves the rows as they are. -/
theorem concat (h : Carries bs done pieces s) {n : Nat} (hfit : done.sum + n ≤ bs.length) :
    Carries bs (done ++ [n]) pieces s := by
  have hsum : (done ++ [n]).sum = done.sum + n := by rw [List.sum_append, List.sum_singleton]
  have hpc := h.pc_le
  have hrow := h.row
  have hle := h.spaceLeft_le
  refine { h with flatten_eq := ?_, sum_le := by omega, pc_le := by omega, opened := fun hspace => ?_ }
  · rw [tagged_append_take bs _ (by omega)]
    exact h.flatten_eq
  · rw [byteTags_append_getElem? _ (by omega)]
    exact h.opened hspace

/-- The piece of the open row. -/
theorem flatten_append_pieceAt (h : Carries bs done pieces s) :
    pieces.flatten ++ pieceAt bs done (13 * pieces.length) (13 - s.spaceLeft) = (tagged bs done).take s.pc := by
  have hrow := h.row
  have hle := h.spaceLeft_le
  rw [h.flatten_eq, pieceAt_eq, ← List.take_add, show 13 * pieces.length + (13 - s.spaceLeft) = s.pc by omega]

/-- An open row is put out as the reference row of its piece, if `n_end` is the count of the tag at its end. -/
theorem emitRow_eq (h : Carries bs done pieces s) (hholds : Holds s bs) (hspace : s.spaceLeft < 13) {ne : Nat}
    (hne : ne = endCount (13 - s.spaceLeft) (byteTags done)[s.pc - 1]?) :
    emitRow s.startPc (13 - s.spaceLeft) s.nStart ne s = .ok (putRow
      (referenceRow pieces.length s.checksum (pieceAt bs done (13 * pieces.length) (13 - s.spaceLeft))) s) := by
  obtain ⟨hstartPc, hns⟩ := h.opened hspace
  have hlen : bs.length = s.len := hholds.1
  have hsum := h.sum_le
  have hpc := h.pc_le
  have hrow := h.row
  rw [← hstartPc] at hns ⊢
  rw [hholds.emitRow_eq (by omega), makeRow_eq_referenceRow (by omega) (by omega) hsum h.sequence hns
    (by rwa [show s.startPc + (13 - s.spaceLeft) - 1 = s.pc - 1 by omega])]

/-- With one more row put out, the rows are those of the pieces and of its piece. -/
theorem putRow_out (h : Carries bs done pieces s) (piece : Piece) :
    (putRow (referenceRow pieces.length s.checksum piece) s).out =
      (referenceRows 0 0#8 (pieces ++ [piece])).flatMap rowBytes := by
  rw [Machine.putRow_out, referenceRows_append, List.flatMap_append, List.flatMap_singleton, ← h.out, ← h.checksum,
    Nat.zero_add]

theorem putRow_checksum (h : Carries bs done pieces s) (piece : Piece) :
    (putRow (referenceRow pieces.length s.checksum piece) s).checksum =
      lastChecksum 0#8 (referenceRows 0 0#8 (pieces ++ [piece])) := by
  rw [Machine.putRow_checksum, referenceRows_append, lastChecksum_append, ← h.checksum, Nat.zero_add]

/-- Step 4 on a full row: one more piece is packed (R105). -/
theorem nextRow (h : Carries bs done pieces s) (hspace : s.spaceLeft = 0) :
    Carries bs done (pieces ++ [pieceAt bs done (13 * pieces.length) 13]) (nextRow (putRow
      (referenceRow pieces.length s.checksum (pieceAt bs done (13 * pieces.length) 13)) s)) := by
  have hsum := h.sum_le
  have hpc := h.pc_le
  have hrow := h.row
  have hflatten := h.flatten_append_pieceAt
  have hlength : 13 * (pieces.length + 1) = s.pc := by omega
  rw [hspace] at hflatten
  exact
    { full := List.forall_mem_append.2 ⟨h.full, List.forall_mem_singleton.2 (pieceAt_length hsum (by omega))⟩
      flatten_eq := by rw [List.flatten_concat, List.length_append, List.length_singleton, hlength]; exact hflatten
      out := h.putRow_out _
      checksum := h.putRow_checksum _
      sequence := by simp [h.sequence, BitVec.ofNat_add]
      sum_le := hsum
      pc_le := hpc
      row := by simp; omega
      spaceLeft_le := le_rfl
      opened := fun hlt => absurd hlt (lt_irrefl 13) }

/-- Step 4: a full row is put out and the next is empty; other rows stay open (R105). -/
theorem closeRow (h : Carries bs done pieces s) (hholds : Holds s bs) {fit j : Nat}
    (hend : s.spaceLeft = 0 → nEndOf fit s = endCount 13 (byteTags done)[s.pc - 1]?)
    (hsum : done.sum = s.pc + s.instLeft) (howes : Owes done s.pc j s.instLeft)
    (howed : s.instLeft ≠ 0 → 1 ≤ j ∧ s.spaceLeft = 0) :
    ∃ t pieces', closeRow fit s = .ok t ∧ Tracks bs done pieces' j t ∧ t.pc = s.pc ∧ t.phase = s.phase ∧
      t.fault = s.fault := by
  by_cases hspace : s.spaceLeft = 0
  · have hemit := h.emitRow_eq hholds (ne := nEndOf fit s) (by omega) (by rw [hspace]; exact hend hspace)
    rw [hspace] at hemit
    have htracks : Tracks bs done _ j _ :=
      { h.nextRow hspace with
        spaceLeft_pos := by simp
        sum_eq := hsum
        owes := howes
        owed_begin_row := fun hinst => ⟨(howed hinst).1, rfl⟩ }
    exact ⟨_, _, closeRow_of_emitRow hspace hemit, htracks, rfl, rfl, rfl⟩
  · exact ⟨s, pieces, if_neg hspace,
      { h with
        spaceLeft_pos := Nat.one_le_iff_ne_zero.2 hspace
        sum_eq := hsum
        owes := howes
        owed_begin_row := fun hinst => absurd (howed hinst).2 hspace }, rfl, rfl, rfl⟩

end Carries

/-! ### One `STEP` -/

/-- `n_end` as the packer counts it is the count of the tag of the row's last byte: where bytes are still owed, those placed
are all the bytes of the instruction so far, or the whole row (R105, R106). -/
theorem nEndOf_eq_endCount {fit j : Nat} {s : State} (hpos : 1 ≤ fit) (hle : fit ≤ 13) (hrow : j = 0 ∨ fit = 13) :
    nEndOf fit s = endCount 13 (some (j + (fit - 1), s.instLeft)) := by
  unfold nEndOf endCount
  by_cases howed : s.instLeft = 0
  · simp [howed]
  · simp only [if_pos (Nat.pos_of_ne_zero howed), if_neg howed]
    omega

namespace Due

variable {bs : List Byte} {done : List Nat} {pieces : List Piece} {j n : Nat} {s : State}

/-- `n_start` as the packer counts it is the count of the tag of the first byte placed (R102). -/
theorem nStart_eq_startCount (h : Due bs done pieces j n s) : min 13 s.instLeft = startCount (byteTags done)[s.pc]? := by
  have htag : (byteTags done)[s.pc]? = some (j, n - 1) := h.owes 0 h.pos
  rw [htag]
  obtain ⟨rfl, hinst⟩ | ⟨hj, hinst, -⟩ := h.begins
  · simp [startCount, hinst]
  · simp [startCount, hinst, Nat.sub_add_cancel h.pos, Nat.one_le_iff_ne_zero.1 hj]

/-- Steps 1 and 3: the bytes are placed in the open row; a row they open takes its count from the first (R102, R104). -/
theorem place (h : Due bs done pieces j n s) : Carries bs done pieces (place (owing n s)) := by
  have hrow := h.row
  have hle := h.spaceLeft_le
  have hpos := h.pos
  have hspace := h.spaceLeft_pos
  have hsum := h.sum_eq
  refine { full := h.full, flatten_eq := h.flatten_eq, out := by simpa using h.out, checksum := by simpa using h.checksum,
           sequence := by simpa using h.sequence, sum_le := h.sum_le, pc_le := ?_, row := ?_, spaceLeft_le := ?_,
           opened := fun _ => ?_ } <;>
    simp only [place_pc, place_spaceLeft, place_startPc, place_nStart, bytesFit_owing, owing_pc, owing_spaceLeft,
      owing_startPc, owing_nStart]
  · omega
  · omega
  · omega
  · by_cases hempty : s.spaceLeft = 13
    · have hpc : s.pc = 13 * pieces.length := by omega
      rw [if_pos hempty, if_pos hempty, ← hpc]
      exact ⟨rfl, h.nStart_eq_startCount⟩
    · rw [if_neg hempty, if_neg hempty]
      exact h.opened (by omega)

/-- `n_end` of a row that the bytes fill is the count of the tag of the last byte placed (R105). -/
theorem nEnd_eq_endCount (h : Due bs done pieces j n s) (hfull : s.spaceLeft ≤ n) :
    nEndOf (bytesFit (owing n s)) (Machine.place (owing n s)) =
      endCount 13 (byteTags done)[(Machine.place (owing n s)).pc - 1]? := by
  have hle := h.spaceLeft_le
  have hspace := h.spaceLeft_pos
  have hbegins := h.begins
  have htag := h.owes (s.spaceLeft - 1) (by omega)
  rw [show n - 1 - (s.spaceLeft - 1) = n - s.spaceLeft by omega, ← Nat.add_sub_assoc hspace] at htag
  rw [bytesFit_owing, Nat.min_eq_left hfull, nEndOf_eq_endCount (j := j) hspace hle (by omega)]
  simp only [place_pc, place_instLeft, bytesFit_owing, owing_pc, owing_instLeft, Nat.min_eq_left hfull, htag]

/-- The `STEP` that places the bytes goes on packing the reference rows (R102 to R106). -/
theorem placeAndClose (h : Due bs done pieces j n s) (hholds : Holds s bs) :
    ∃ t pieces' j', placeAndClose s (owing n s) = .next t ∧ Tracks bs done pieces' j' t ∧ s.pc < t.pc ∧
      t.phase = s.phase ∧ t.fault = s.fault := by
  have hpos := h.pos
  have hspace := h.spaceLeft_pos
  have hsum := h.sum_eq
  have howes := h.owes.drop (min s.spaceLeft n)
  obtain ⟨t, pieces', ht, htracks, hpc, hphase, hfault⟩ := h.place.closeRow (j := j + min s.spaceLeft n)
    (fit := bytesFit (owing n s)) (by simpa [Holds] using hholds)
    (fun hfull => h.nEnd_eq_endCount (by simp at hfull; omega)) (by simp; omega) (by simpa using howes)
    (by simp; omega)
  simp only [place_pc, place_phase, place_fault, bytesFit_owing, owing_pc, owing_phase, owing_fault] at hpc hphase hfault
  exact ⟨t, pieces', _, by rw [Machine.placeAndClose, ht], htracks, by omega, hphase, hfault⟩

end Due

namespace Tracks

variable {bs : List Byte} {done : List Nat} {pieces : List Piece} {j : Nat} {s : State}

/-- An instruction resolved at `pc` has all its bytes to place (R103). -/
theorem due_resolved (h : Tracks bs done pieces j s) (hinst : s.instLeft = 0) {n : Nat} (hn : 1 ≤ n)
    (hfit : s.pc + n ≤ bs.length) : Due bs (done ++ [n]) pieces 0 n s := by
  have hdone : done.sum = s.pc := by rw [h.sum_eq, hinst, Nat.add_zero]
  have howes := owes_concat done n
  rw [hdone] at howes
  exact { h.concat (hdone ▸ hfit) with
    spaceLeft_pos := h.spaceLeft_pos
    pos := hn
    sum_eq := by simp [hdone]
    owes := howes
    begins := .inl ⟨rfl, hinst⟩ }

/-- An instruction in progress has the bytes owed to place. -/
theorem due_owed (h : Tracks bs done pieces j s) (hinst : s.instLeft ≠ 0) : Due bs done pieces j s.instLeft s := by
  obtain ⟨hj, hempty⟩ := h.owed_begin_row hinst
  exact { h with pos := Nat.one_le_iff_ne_zero.2 hinst, begins := .inr ⟨hj, rfl, hempty⟩ }

end Tracks

/-! ### The run between two `STEP`s -/

/-- How a run ends: in `DONE` with the reference stream, or in `MalformedTail` where there is none
(45_host_operations.md R149). -/
def Answers (reference : Option (List Byte)) (t : State) : Prop :=
  match reference with
  | some out => t.phase = .done ∧ t.fault = .none ∧ t.out = out
  | none => t.phase = .fault ∧ t.fault = .malformedTail

/-- About to perform a `STEP` on the Program `bs`, with a silent host. -/
structure Running (runMax : Byte) (bs : List Byte) (s : State) : Prop where
  digitRunMax : s.params.digitRunMax = runMax
  holds : Holds s bs
  phase : s.phase = .pack
  fault : s.fault = .none
  pins : s.pins = []

/-- A `STEP` that answers in `PACK` without a fault runs on. -/
theorem Running.of_packStep {runMax : Byte} {bs : List Byte} {s t : State} (h : Running runMax bs s)
    (ht : packStep s = .next t) (hphase : t.phase = s.phase) (hfault : t.fault = s.fault) : Running runMax bs t := by
  have hframe : PackStepFrame s t := packStep_frame ht
  exact ⟨by rw [hframe.params, h.digitRunMax], by rw [Holds, hframe.len, hframe.prog]; exact h.holds,
    hphase.trans h.phase, hfault.trans h.fault, hframe.pins.trans h.pins⟩

/-- The final flush puts out the last row of the reference stream (R107). -/
theorem Tracks.flush {bs : List Byte} {done : List Nat} {pieces : List Piece} {j : Nat} {s : State}
    (h : Tracks bs done pieces j s) (hholds : Holds s bs) (hpos : ∀ n ∈ done, 1 ≤ n) (hend : s.len ≤ s.pc) :
    ∃ t, flush s = .next t ∧ t.phase = .done ∧ t.fault = s.fault ∧
      t.out = (referenceRows 0 0#8 (cut13 bs.length (tagged bs done))).flatMap rowBytes := by
  have hlen : bs.length = s.len := hholds.1
  have hsum := h.sum_le
  have hpc := h.pc_le
  have hrow := h.row
  have hle := h.spaceLeft_le
  have hspacePos := h.spaceLeft_pos
  have htagged : (tagged bs done).take s.pc = tagged bs done :=
    List.take_of_length_le (by simp [tagged]; omega)
  have hcut := h.flatten_append_pieceAt
  rw [htagged] at hcut
  obtain ⟨fuel, hfuel⟩ : ∃ fuel, bs.length = pieces.length + fuel := Nat.exists_eq_add_of_le (by omega)
  rw [← hcut, hfuel, cut13_flatten_append h.full]
  by_cases hspace : s.spaceLeft < 13
  · obtain ⟨before, hlast⟩ := exists_byteTags_last hpos (by omega)
    rw [show done.sum - 1 = s.pc - 1 by omega] at hlast
    have hemit := h.emitRow_eq hholds hspace (ne := 0) (by rw [hlast]; rfl)
    have hpiece := pieceAt_length (a := 13 * pieces.length) (p := 13 - s.spaceLeft) hsum (by omega)
    refine ⟨_, flush_of_emitRow hspace hemit, rfl, rfl, ?_⟩
    rw [cut13_of_length_le (by omega) (by omega) (by omega)]
    exact h.putRow_out _
  · refine ⟨_, if_neg hspace, rfl, rfl, ?_⟩
    rw [show 13 - s.spaceLeft = 0 by omega, pieceAt, List.take_zero, List.zip_nil_left, cut13_nil, List.append_nil]
    exact h.out

theorem packStep_of_end {s : State} (h : s.len ≤ s.pc) : packStep s = flush s :=
  if_neg (Nat.not_lt.2 h)

theorem packStep_of_owed {s : State} (hpc : s.pc < s.len) (howed : s.instLeft ≠ 0) :
    packStep s = placeAndClose s (owing s.instLeft s) := by
  rw [packStep, if_pos hpc, if_neg howed, continueInstr_eq_placeAndClose]

theorem packStep_of_fetch_ok {s : State} (hphase : s.phase = .pack) (hpc : s.pc < s.len) (hinst : s.instLeft = 0)
    {i : Instr} (hi : fetch s = .ok i) : packStep s = placeAndClose s (owing i.length s) := by
  obtain ⟨-, hfit⟩ := fetch_length hi
  simp only [packStep, hpc, hinst, hi, if_true, exec_eq_packInstr, packInstr_eq_placeAndClose hphase hinst hfit]

theorem packStep_of_malformedTail {s : State} (hpc : s.pc < s.len) (hinst : s.instLeft = 0)
    (he : fetch s = .error .malformedTail) : packStep s = .next (raise .malformedTail s) := by
  simp only [packStep, hpc, hinst, he, if_true, rejected]

/-- A run on `bs` between two `STEP`s: the rows put out are those of the reference for the instructions resolved so far. -/
def Simulates (runMax : Byte) (bs : List Byte) (s : State) : Prop :=
  Running runMax bs s ∧ ∃ done pieces j, Resolved runMax bs done ∧ Tracks bs done pieces j s

/-- A `STEP` that places bytes owed goes on with the run. -/
theorem Running.simulates_of_due {runMax : Byte} {bs : List Byte} {done : List Nat} {pieces : List Piece} {j n : Nat}
    {s : State} (hrun : Running runMax bs s) (hresolved : Resolved runMax bs done) (hdue : Due bs done pieces j n s)
    (hstep : packStep s = placeAndClose s (owing n s)) :
    ∃ t, packStep s = .next t ∧ s.pc < t.pc ∧ Simulates runMax bs t := by
  obtain ⟨t, pieces', j', ht, htracks, hlt, hphase, hfault⟩ := hdue.placeAndClose hrun.holds
  rw [← hstep] at ht
  exact ⟨t, ht, hlt, hrun.of_packStep ht hphase hfault, done, pieces', j', hresolved, htracks⟩

/-- A `STEP` before the end of the Program: an instruction that does not decode ends the run, and no reference stream
exists; otherwise bytes are placed and the run goes on (R102 to R106). -/
theorem Simulates.packStep_before_end {runMax : Byte} {bs : List Byte} {s : State} (h : Simulates runMax bs s)
    (hpc : s.pc < s.len) :
    ∃ t, packStep s = .next t ∧ (Answers (referenceOut runMax bs) t ∨ (s.pc < t.pc ∧ Simulates runMax bs t)) := by
  obtain ⟨hrun, done, pieces, j, hresolved, htracks⟩ := h
  obtain rfl := hrun.digitRunMax
  have hholds := hrun.holds
  have hlen : bs.length = s.len := hholds.1
  have hsum := htracks.sum_eq
  by_cases hinst : s.instLeft = 0
  · have hdone : done.sum = s.pc := by omega
    cases hfetch : fetch s with
    | error e =>
      obtain rfl : e = .malformedTail := hholds.eq_malformedTail_of_fetch hfetch
      have hdecode := hholds.decode_of_fetch_error hpc.le hfetch
      rw [← hdone] at hdecode
      have hnone := hresolved.measure_of_error (by omega) hdecode
      refine ⟨_, packStep_of_malformedTail hpc hinst hfetch, .inl ?_⟩
      rw [referenceOut, hnone]
      exact ⟨rfl, rfl⟩
    | ok i =>
      obtain ⟨hn, hfit⟩ := fetch_length hfetch
      have hdecode := hholds.decode_of_fetch_ok hpc.le hfetch
      rw [← hdone] at hdecode
      obtain ⟨t, ht, hgoes⟩ := hrun.simulates_of_due (hresolved.concat (by omega) hn hdecode)
        (htracks.due_resolved hinst hn (by omega)) (packStep_of_fetch_ok hrun.phase hpc hinst hfetch)
      exact ⟨t, ht, .inr hgoes⟩
  · obtain ⟨t, ht, hgoes⟩ :=
      hrun.simulates_of_due hresolved (htracks.due_owed hinst) (packStep_of_owed hpc hinst)
    exact ⟨t, ht, .inr hgoes⟩

/-- The `STEP` at the end of the Program ends the run with the reference stream (R107). -/
theorem Simulates.packStep_at_end {runMax : Byte} {bs : List Byte} {s : State} (h : Simulates runMax bs s)
    (hpc : s.len ≤ s.pc) : ∃ t, packStep s = .next t ∧ Answers (referenceOut runMax bs) t := by
  obtain ⟨⟨-, hholds, -, hfault, -⟩, done, pieces, j, hresolved, htracks⟩ := h
  have hlen : bs.length = s.len := hholds.1
  have hsum := htracks.sum_eq
  have hle := htracks.sum_le
  obtain ⟨t, ht, hdone, hfault', hout⟩ := htracks.flush hholds hresolved.pos hpc
  refine ⟨t, by rw [packStep_of_end hpc, ht], ?_⟩
  rw [referenceOut, hresolved.measure_of_end (by omega)]
  exact ⟨hdone, hfault'.trans hfault, hout⟩

/-! ### The run -/

theorem run_succ_of_core_step (M : Host.Core) {s t : M.State} (h : M.step s = .next t) (k : Nat) :
    M.run (k + 1) s = M.run k t := by
  rw [Host.Core.run, h]

theorem run_succ_of_step {s t : State} (h : step s = .next t) (k : Nat) :
    Host.Core.run core (k + 1) s = Host.Core.run core k t :=
  run_succ_of_core_step core h k

/-- With a silent host a moment in `PACK` is one `STEP`. -/
theorem Running.step_eq {runMax : Byte} {bs : List Byte} {s : State} (h : Running runMax bs s) : step s = packStep s := by
  have hnow : pinsNow s = PortIn.idle := by rw [pinsNow, h.pins]
  have hpass : passMoment s = s := by
    have hpins : s.pins.tail = s.pins := by rw [h.pins]; rfl
    simp [passMoment, hnow, PortIn.idle, hpins]
  rw [step_of_pack h.phase (by rw [hnow]; rfl), hpass]

/-- From between two `STEP`s the run reaches its answer: each `STEP` but the last raises `pc` (R108, R110). -/
theorem Simulates.run {runMax : Byte} {bs : List Byte} (m : Nat) :
    ∀ {s : State}, Simulates runMax bs s → s.len - s.pc < m →
      ∃ k t, k ≤ m ∧ Host.Core.run core k s = .next t ∧ Answers (referenceOut runMax bs) t := by
  induction m with
  | zero => exact fun _ hm => absurd hm (Nat.not_lt_zero _)
  | succ m ih =>
    intro s h hm
    have hstep : step s = packStep s := h.1.step_eq
    obtain hend | hpc := le_or_gt s.len s.pc
    · obtain ⟨t, ht, hanswer⟩ := h.packStep_at_end hend
      exact ⟨1, t, by omega, run_succ_of_step (hstep.trans ht) 0, hanswer⟩
    · obtain ⟨t, ht, hanswer | ⟨hlt, hsim⟩⟩ := h.packStep_before_end hpc
      · exact ⟨1, t, by omega, run_succ_of_step (hstep.trans ht) 0, hanswer⟩
      · have hlen : t.len = s.len := (packStep_frame ht).len
        obtain ⟨k, u, hk, hu, hanswer⟩ := ih hsim (by omega)
        exact ⟨k + 1, u, by omega, by rw [run_succ_of_step (hstep.trans ht), hu], hanswer⟩

/-- The packer computes the reference stream of any Program, from any state about to pack it, with at most one `STEP` for
each byte and the final flush (R108, R149). -/
theorem Running.run_of_fresh {runMax : Byte} {bs : List Byte} {s : State} (h : Running runMax bs s) (hfresh : Fresh s) :
    ∃ k t, k ≤ bs.length + 1 ∧ Host.Core.run core k s = .next t ∧ Answers (referenceOut runMax bs) t := by
  have hlen : bs.length = s.len := h.holds.1
  have hsim : Simulates runMax bs s := ⟨h, [], [], 0, .nil runMax bs, hfresh.tracks bs⟩
  exact hsim.run (bs.length + 1) (by omega)

end Sys2Proof.Machine
end

section
/-!
From the host's input to the output stream: the pushes load the input, `FINISH` normalises it, and the packer's run answers
with the reference stream of the Program (spec/45_host_operations.md R148, R149).
-/
namespace Sys2Proof.Machine

/-- Loading: the bytes `bs` are loaded under the parameters `p`, and the host is to show `pins`. -/
structure Loaded (p : Params) (bs : List Byte) (pins : List PortIn) (s : State) : Prop where
  params : s.params = p
  holds : Holds s bs
  phase : s.phase = .load
  fault : s.fault = .none
  fresh : Fresh s
  pins : s.pins = pins

/-- A `PUSH` token in `LOAD`: its byte is loaded below `CAP`, and dropped at `CAP` with `ON_OVERFLOW = TRUNCATE` (R142). -/
theorem Loaded.step_push {p : Params} {bs : List Byte} {b : Byte} {pins : List PortIn} {s : State}
    (h : Loaded p bs (pushPins b :: pins) s) (hcap : bs.length ≤ p.cap)
    (hroom : bs.length < p.cap ∨ p.onOverflow = .truncate) :
    ∃ t, step s = .next t ∧ Loaded p ((bs ++ [b]).take p.cap) pins t := by
  obtain ⟨rfl, hholds, hphase, hfault, hfresh, hpins⟩ := h
  have hlen : bs.length = s.len := hholds.1
  have hnow : pinsNow s = pushPins b := by rw [pinsNow, hpins]
  have hrest : (passMoment s).pins = pins := by rw [passMoment_pins, hpins, List.tail_cons]
  have hstep : step s = push b (passMoment s) := by
    rw [step_of_token hphase (by rw [hnow]; rfl) (by rw [hnow]; rfl), hnow]
    rfl
  obtain ⟨t, ht⟩ := push_progress b (s := passMoment s) hphase
  obtain ⟨-, ⟨hlt, rfl⟩ | ⟨hfull, hover, -⟩ | ⟨hfull, -, rfl⟩⟩ := push_next ht
  · have hlt : s.len < s.params.cap := hlt
    have hheld : Holds (passMoment s) bs := hholds
    refine ⟨_, hstep.trans ht, rfl, ?_, hphase, hfault, hfresh, hrest⟩
    rw [List.take_of_length_le (by simp; omega)]
    exact hheld.push b
  · have hfull : s.params.cap ≤ s.len := hfull
    have hover : s.params.onOverflow = .fault := hover
    obtain hlt | htruncate := hroom
    · omega
    · cases hover.symm.trans htruncate
  · have hfull : s.params.cap ≤ s.len := hfull
    refine ⟨_, hstep.trans ht, rfl, ?_, hphase, hfault, hfresh, hrest⟩
    rw [List.take_left' (by omega)]
    exact hholds

theorem take_take_append {α : Type} (n : Nat) (xs ys : List α) : (xs.take n ++ ys).take n = (xs ++ ys).take n := by
  rw [List.take_append, List.take_append, List.take_take, List.length_take, min_self,
    show n - min n xs.length = n - xs.length by omega]

/-- The pushes of a host load its input, up to `CAP` bytes of it (R149, 60_exceptions.md R163). -/
theorem Loaded.run_pushes {p : Params} {pins : List PortIn} (input : List Byte) :
    ∀ {bs : List Byte} {s : State}, Loaded p bs (input.map pushPins ++ pins) s → bs.length ≤ p.cap →
      (bs.length + input.length ≤ p.cap ∨ p.onOverflow = .truncate) →
      ∃ t, (∀ k, Host.Core.run core (input.length + k) s = Host.Core.run core k t) ∧
        Loaded p ((bs ++ input).take p.cap) pins t := by
  induction input with
  | nil =>
    intro bs s h hcap _
    refine ⟨s, fun k => by rw [List.length_nil, Nat.zero_add], ?_⟩
    rw [List.append_nil, List.take_of_length_le hcap]
    exact h
  | cons b input ih =>
    intro bs s h hcap hroom
    obtain ⟨t, ht, hloaded⟩ := h.step_push hcap (hroom.imp_left fun hfit => by simp at hfit; omega)
    obtain ⟨u, hu, hend⟩ := ih hloaded (List.length_take_le _ _)
      (hroom.imp_left fun hfit => by simp at hfit ⊢; omega)
    refine ⟨u, fun k => ?_, ?_⟩
    · rw [List.length_cons, Nat.add_right_comm, run_succ_of_step ht, hu]
    · rw [take_take_append, List.append_assoc] at hend
      exact hend

/-- `FINISH` begins to pack the normalised Program (R143). -/
theorem Loaded.step_finish {p : Params} {bs : List Byte} {s : State} (h : Loaded p bs [finishPins] s)
    (hcap : bs.length ≤ p.cap) :
    ∃ t, step s = .next t ∧ Running p.digitRunMax (normalised bs) t ∧ Fresh t := by
  obtain ⟨rfl, hholds, hphase, hfault, hfresh, hpins⟩ := h
  have hlen : bs.length = s.len := hholds.1
  have hnow : pinsNow s = finishPins := by rw [pinsNow, hpins]
  have hrest : (passMoment s).pins = [] := by rw [passMoment_pins, hpins, List.tail_cons]
  have hheld : Holds (passMoment s) bs := hholds
  obtain ⟨u, hu, hnormal, hframe⟩ := hheld.normalise_normalised (hlen ▸ hcap)
  have hstep : step s = .next { u with phase := .pack } := by
    rw [step_of_token hphase (by rw [hnow]; rfl) (by rw [hnow]; rfl), hnow]
    exact finish_of_normalise hphase hu
  refine ⟨_, hstep, ⟨?_, hnormal, rfl, ?_, ?_⟩, ?_⟩
  · show u.params.digitRunMax = _
    rw [hframe]; rfl
  · show u.fault = _
    rw [hframe]; exact hfault
  · show u.pins = _
    rw [hframe]; exact hrest
  · rw [hframe]; exact hfresh

/-- The run of a host with the input `input` answers with the reference stream of what is loaded of it, normalised. -/
theorem Loaded.run_hostPins {p : Params} {input : List Byte} {s : State} (h : Loaded p [] (hostPins input) s)
    (hroom : input.length ≤ p.cap ∨ p.onOverflow = .truncate) :
    ∃ k t, Host.Core.run core k s = .next t ∧
      Answers (referenceOut p.digitRunMax (normalised (input.take p.cap))) t := by
  obtain ⟨t, ht, hloaded⟩ := h.run_pushes input (Nat.zero_le _) (by simpa using hroom)
  obtain ⟨u, hu, hrunning, hfresh⟩ := hloaded.step_finish (List.length_take_le _ _)
  obtain ⟨k, v, -, hv, hanswer⟩ := hrunning.run_of_fresh hfresh
  exact ⟨input.length + (k + 1), v, by rw [ht, run_succ_of_step hu, hv], hanswer⟩

/-- Settles O55: the pushes load the input up to `CAP`, `FINISH` normalises it, and each `STEP` after it keeps the rows put
out those of the reference stream. -/
theorem encoderComputesReference : Obligations.EncoderComputesReference := by
  intro s input hphase hfault hlen hfresh hpins hroom
  have hempty : Holds s [] := ⟨hlen.symm, fun a ha => by omega⟩
  have hloaded : Loaded s.params [] (hostPins input) s := ⟨rfl, hempty, hphase, hfault, hfresh, hpins⟩
  obtain ⟨k, t, ht, hanswer⟩ := hloaded.run_hostPins hroom
  refine ⟨fun o ho => ?_, fun hnone => ?_⟩
  · rw [ho] at hanswer
    exact ⟨k, t, ht, hanswer⟩
  · rw [hnone] at hanswer
    exact ⟨k, t, ht, hanswer⟩

end Sys2Proof.Machine
end

section
/-!
`InstLen` class by class, for any reader: what each range of the opcode byte needs beside it, and what bounds the result
(spec/41_length_decoder.md R70 to R91).
-/
namespace Sys2Proof

/-- The length of an instruction whose opcode byte alone gives it (R71, R74 to R84, R87 to R89); `none` for the classes
that read further. -/
def opcodeLength (b : Byte) : Option Nat :=
  match opTag b with
  | .one0 | .one2 | .one3 | .one4 | .one5 | .one6 | .one7 | .one8 => some 1
  | .two9 | .twoA | .twoB | .cshort => some 2
  | .threeD | .threeE => some 3
  | .text => some (textLength (loNibble b))
  | .digits | .alpha | .labelOrEnd => none

/-- The length that the third byte gives a `GLABEL` or an `END` (R85, R86). -/
def labelOrEndLength (b2 : Byte) : Nat := if highBit b2 then glabelLength b2 else 3

/-! ### The opcode byte's ranges and the length fields, as naturals (R47, R48) -/

theorem opcodeLength_oneByte {b : Byte} :
    (b.toNat < 0x10 ∨ (0x20 ≤ b.toNat ∧ b.toNat ≤ 0x8F)) → opcodeLength b = some 1 := by
  revert b; decide

theorem opcodeLength_twoBytes {b : Byte} :
    ((0x90 ≤ b.toNat ∧ b.toNat ≤ 0xBF) ∨ b = 0xCE#8 ∨ b = 0xCF#8) → opcodeLength b = some 2 := by
  revert b; decide

theorem opcodeLength_threeBytes {b : Byte} : (0xD0 ≤ b.toNat ∧ b.toNat ≤ 0xEF) → opcodeLength b = some 3 := by
  revert b; decide

theorem opcodeLength_text {b : Byte} : 0xF0 ≤ b.toNat → opcodeLength b = some (1 + b.toNat % 16) := by
  revert b; decide

theorem opTag_labelOrEnd_of_toNat {b : Byte} : (0xC0 ≤ b.toNat ∧ b.toNat ≤ 0xCD) → opTag b = .labelOrEnd := by
  revert b; decide

/-- The three classes that read further, and all the others (R70). -/
theorem opTag_cases (b : Byte) :
    opTag b = .digits ∨ opTag b = .alpha ∨ opTag b = .labelOrEnd ∨ ∃ n, opcodeLength b = some n := by
  unfold opcodeLength
  cases opTag b <;> simp

theorem opcodeLength_le {b : Byte} {n : Nat} (h : opcodeLength b = some n) : n ≤ 16 := by
  have hnibble : (loNibble b).toNat < 16 := (loNibble b).isLt
  unfold opcodeLength textLength at h
  split at h <;> cases h <;> omega

theorem alphaLength_eq (b1 : Byte) : alphaLength b1 = 2 + b1.toNat % 16 := by
  rw [alphaLength, toNat_loNibble]

theorem glabelLength_eq (b2 : Byte) : glabelLength b2 = 3 + b2.toNat % 16 := by
  rw [glabelLength, toNat_loNibble]

theorem labelOrEndLength_eq (b2 : Byte) : labelOrEndLength b2 = if 0x80 ≤ b2.toNat then 3 + b2.toNat % 16 else 3 := by
  simp only [labelOrEndLength, highBit_eq, glabelLength_eq, decide_eq_true_eq]

theorem inRun_eq_true_iff {runMax r : Byte} : inRun runMax r = true ↔ 0x0F < r.toNat ∧ r.toNat ≤ runMax.toNat := by
  simp [inRun]

theorem inRun_eq_false_iff {runMax r : Byte} : inRun runMax r = false ↔ r.toNat ≤ 0x0F ∨ runMax.toNat < r.toNat := by
  rw [← Bool.not_eq_true, inRun_eq_true_iff]
  omega

/-! ### One equation per kind of class -/

section

variable {read : Nat → Except Reject Byte} {runMax : Byte} {limit o : Nat} {b : Byte}

theorem instLen_of_opcodeLength (hb : read o = .ok b) {n : Nat} (hn : opcodeLength b = some n) :
    instLen read runMax limit o = .ok n := by
  unfold opcodeLength at hn
  cases htag : opTag b <;> simp_all [instLen]

theorem instLen_of_digits (hb : read o = .ok b) (htag : opTag b = .digits) :
    instLen read runMax limit o = (1 + ·) <$> scanRun read runMax (limit - o) (o + 1) := by
  simp only [instLen, hb, htag]
  cases scanRun read runMax (limit - o) (o + 1) <;> rfl

theorem instLen_of_alpha (hb : read o = .ok b) (htag : opTag b = .alpha) :
    instLen read runMax limit o = alphaLength <$> read (o + 1) := by
  simp only [instLen, hb, htag]
  cases read (o + 1) <;> rfl

theorem instLen_of_labelOrEnd (hb : read o = .ok b) (htag : opTag b = .labelOrEnd) :
    instLen read runMax limit o = labelOrEndLength <$> read (o + 2) := by
  simp only [instLen, hb, htag]
  cases read (o + 2) with
  | error e => rfl
  | ok b2 => exact (apply_ite Except.ok _ _ _).symm

theorem exists_read_of_instLen {n : Nat} (h : instLen read runMax limit o = .ok n) : ∃ b, read o = .ok b := by
  unfold instLen at h
  split at h
  · cases h
  · exact ⟨_, by assumption⟩

theorem exists_of_map_eq_ok {α : Type} {e : Except Reject α} {f : α → Nat} {n : Nat} (h : f <$> e = .ok n) :
    ∃ a, f a = n := by
  cases e with
  | error e => cases h
  | ok a => exact ⟨a, Except.ok.inj h⟩

/-- Only the scan of a digit run can give more than the 18 bytes of a `GLABEL` whose field is 15 (R91). -/
theorem instLen_le_of_not_digits (hb : read o = .ok b) (htag : opTag b ≠ .digits) {n : Nat}
    (h : instLen read runMax limit o = .ok n) : n ≤ 18 := by
  obtain hdigits | halpha | hlabel | ⟨m, hm⟩ := opTag_cases b
  · exact absurd hdigits htag
  · rw [instLen_of_alpha hb halpha] at h
    obtain ⟨b1, rfl⟩ := exists_of_map_eq_ok h
    rw [alphaLength_eq]
    omega
  · rw [instLen_of_labelOrEnd hb hlabel] at h
    obtain ⟨b2, rfl⟩ := exists_of_map_eq_ok h
    rw [labelOrEndLength_eq]
    split <;> omega
  · rw [instLen_of_opcodeLength hb hm] at h
    cases h
    exact (opcodeLength_le hm).trans (by decide)

/-- A scan ends at or before a byte outside the run range, if every byte up to there reads (R72). -/
theorem exists_scanRun_le {fuel a d : Nat} {r : Byte} (hfuel : d < fuel) (hread : ∀ j, j < d → ∃ c, read (a + j) = .ok c)
    (hr : read (a + d) = .ok r) (hstop : inRun runMax r = false) : ∃ k, scanRun read runMax fuel a = .ok k ∧ k ≤ d := by
  classical
  have hends : ∃ k c, read (a + k) = .ok c ∧ inRun runMax c = false := ⟨d, r, hr, hstop⟩
  have hle : Nat.find hends ≤ d := Nat.find_min' hends ⟨r, hr, hstop⟩
  refine ⟨Nat.find hends, scanRun_ok_iff.2 ⟨by omega, fun j hj => ?_, Nat.find_spec hends⟩, hle⟩
  obtain ⟨c, hc⟩ := hread j (by omega)
  exact ⟨c, hc, Bool.eq_true_of_not_eq_false fun hout => Nat.find_min hends hj ⟨c, hc, hout⟩⟩

end

end Sys2Proof
end

section
/-!
`InstLen` on the Program: the length of each class, where a lookahead read meets the end, and why it never does on a
normalised Program (spec/41_length_decoder.md R71 to R91).
-/
namespace Sys2Proof.Machine

/-- Settles O5, by running the decoder on each example. -/
theorem specExampleBytesDecode : Obligations.SpecExampleBytesDecode := by
  refine ⟨?_, ?_, ?_, ?_, ?_, ?_, ?_⟩ <;> decide

/-- Settles O6: the opcode byte gives the length. -/
theorem instLenOneByteClasses : Obligations.InstLenOneByteClasses :=
  fun _ _ _ hb hrange => instLen_of_opcodeLength hb (opcodeLength_oneByte hrange)

/-- Settles O7: the opcode byte gives the length. -/
theorem instLenByOpcodeByte : Obligations.InstLenByOpcodeByte := fun _ _ _ hb =>
  ⟨fun hrange => instLen_of_opcodeLength hb (opcodeLength_twoBytes hrange),
    fun hrange => instLen_of_opcodeLength hb (opcodeLength_threeBytes hrange),
    fun hrange => instLen_of_opcodeLength hb (opcodeLength_text hrange)⟩

/-- Settles O8: the length is that of the lookahead byte, and a read at or above `L` rejects the instruction. -/
theorem instLenLookahead : Obligations.InstLenLookahead := by
  intro s o b hb
  refine ⟨fun hrange => ⟨fun b1 hb1 => ?_, fun hend => ?_⟩, fun hrange => ⟨fun b2 hb2 => ?_, fun hend => ?_⟩⟩
  · rw [progInstLen, instLen_of_alpha hb (opTag_alpha hrange), hb1, Except.map_ok, alphaLength_eq]
  · rw [progInstLen, instLen_of_alpha hb (opTag_alpha hrange), memRead_malformedTail_iff.2 hend, Except.map_error]
  · rw [progInstLen, instLen_of_labelOrEnd hb (opTag_labelOrEnd_of_toNat hrange), hb2, Except.map_ok, labelOrEndLength_eq]
  · rw [progInstLen, instLen_of_labelOrEnd hb (opTag_labelOrEnd_of_toNat hrange), memRead_malformedTail_iff.2 hend,
      Except.map_error]

/-- Settles O9: the scan counts the run bytes and stops at the byte that ends them. -/
theorem instLenDigitsCountsRun : Obligations.InstLenDigitsCountsRun := by
  intro s o k b r hb hlo hhi hrun hr hstop
  have hlt : o + 1 + k < s.len := (memRead_ok_iff.1 hr).1
  have hscan : scanRun (memRead s) s.params.digitRunMax (s.len - o) (o + 1) = .ok k :=
    scanRun_ok_iff.2 ⟨by omega, fun j hj => (hrun j hj).imp fun _ hc => hc.imp_right inRun_eq_true_iff.2,
      r, hr, inRun_eq_false_iff.2 hstop⟩
  rw [progInstLen, instLen_of_digits hb (opTag_digits ⟨hlo, hhi⟩), hscan, Except.map_ok]

/-- A scan with nothing but run bytes up to the end of the Program is a malformed tail (R90). -/
theorem scanRun_of_run_to_end {s : State} {runMax : Byte} {fuel a : Nat}
    (hrun : ∀ c, a ≤ c → c < s.len → ∃ r, memRead s c = .ok r ∧ inRun runMax r = true) :
    scanRun (memRead s) runMax fuel a = .error .malformedTail := by
  have hreject (k : Nat) (e : Reject) (he : memRead s (a + k) = .error e) : e = .malformedTail := by
    by_cases hlt : a + k < s.len
    · obtain ⟨r, hr, -⟩ := hrun (a + k) (by omega) hlt
      cases hr.symm.trans he
    · rw [memRead_malformedTail_iff.2 (Nat.not_lt.1 hlt)] at he
      exact (Except.error.inj he).symm
  cases hscan : scanRun (memRead s) runMax fuel a with
  | error e => rw [eq_malformedTail_of_scanRun hreject ((scanRun_add _ _ a fuel 0).symm.trans hscan)]
  | ok k =>
    obtain ⟨-, -, r, hr, hstop⟩ := scanRun_ok_iff.1 hscan
    obtain ⟨r', hr', hin⟩ := hrun (a + k) (by omega) (memRead_ok_iff.1 hr).1
    rw [Except.ok.inj (hr.symm.trans hr'), hin] at hstop
    cases hstop

/-- Settles O10: the scan finds nothing but run bytes up to the end. -/
theorem instLenDigitsRunToEnd : Obligations.InstLenDigitsRunToEnd := by
  intro s o b hb hlo hhi hrun
  rw [progInstLen, instLen_of_digits hb (opTag_digits ⟨hlo, hhi⟩), scanRun_of_run_to_end fun a ha hlt =>
    (hrun a ha hlt).imp fun _ hc => hc.imp_right inRun_eq_true_iff.2, Except.map_error]

/-- Settles O11: every class has its opcode byte, and only the digit run is not bounded by a 4-bit field. -/
theorem instLenBounds : Obligations.InstLenBounds := by
  intro s o n h
  obtain ⟨b, hb⟩ := exists_read_of_instLen h
  refine ⟨instLen_pos h, ?_⟩
  by_cases htag : opTag b = .digits
  · exact .inr ⟨b, hb, toNat_of_opTag_digits htag⟩
  · exact .inl (instLen_le_of_not_digits hb htag h)

/-! ### A normalised Program (R90, R91) -/

/-- The run range ends below the terminator's opcode byte, under either reading of the digit run's bound (R4). -/
theorem inRun_terminator {p : Params} (h : p.wf) : inRun p.digitRunMax 0xC0#8 = false := by
  obtain h | h := h <;> rw [h] <;> decide

namespace Holds

variable {s : State} {bs pre : List Byte}

theorem exists_memRead (h : Holds s bs) {a : Nat} (ha : a < s.len) : ∃ b, memRead s a = .ok b := by
  obtain ⟨b, hb⟩ := h.exists_memGet ha
  exact ⟨b, memRead_ok_iff.2 ⟨ha, hb⟩⟩

theorem len_eq_of_term (h : Holds s (pre ++ Config.term)) : s.len = pre.length + 3 := by
  rw [← h.1, List.length_append]
  rfl

/-- A byte of a normalised Program stands before the terminator, or is one of its three. -/
theorem memRead_term_cases (h : Holds s (pre ++ Config.term)) {o : Nat} {b : Byte} (hb : memRead s o = .ok b) :
    o < pre.length ∨ (o = pre.length ∧ b = 0xC0#8) ∨ (o = pre.length + 1 ∧ b = 0x00#8) ∨
      (o = pre.length + 2 ∧ b = 0x2F#8) := by
  have hlen := h.len_eq_of_term
  have hlt : o < s.len := (memRead_ok_iff.1 hb).1
  refine or_iff_not_imp_left.2 fun hge => ?_
  obtain ⟨j, rfl⟩ := Nat.exists_eq_add_of_le (Nat.not_lt.1 hge)
  rw [h.memRead_eq_listRead, listRead_ok_iff, List.getElem?_append_right (Nat.le_add_right _ _),
    Nat.add_sub_cancel_left] at hb
  obtain rfl | rfl | rfl : j = 0 ∨ j = 1 ∨ j = 2 := by omega
  · exact .inl ⟨rfl, (Option.some.inj hb).symm⟩
  · exact .inr (.inl ⟨rfl, (Option.some.inj hb).symm⟩)
  · exact .inr (.inr ⟨rfl, (Option.some.inj hb).symm⟩)

theorem lt_term_of_digits_or_alpha (h : Holds s (pre ++ Config.term)) {o : Nat} {b : Byte} (hb : memRead s o = .ok b)
    (htag : opTag b = .digits ∨ opTag b = .alpha) : o < pre.length := by
  obtain hlt | ⟨-, rfl⟩ | ⟨-, rfl⟩ | ⟨-, rfl⟩ := h.memRead_term_cases hb
  · exact hlt
  all_goals exact absurd htag (by decide)

theorem le_term_of_labelOrEnd (h : Holds s (pre ++ Config.term)) {o : Nat} {b : Byte} (hb : memRead s o = .ok b)
    (htag : opTag b = .labelOrEnd) : o ≤ pre.length := by
  obtain hlt | ⟨rfl, -⟩ | ⟨-, rfl⟩ | ⟨-, rfl⟩ := h.memRead_term_cases hb
  · exact hlt.le
  · exact le_rfl
  all_goals exact absurd htag (by decide)

theorem memRead_term (h : Holds s (pre ++ Config.term)) : memRead s pre.length = .ok 0xC0#8 := by
  rw [h.memRead_eq_listRead, listRead_ok_iff, List.getElem?_append_right le_rfl, Nat.sub_self]
  rfl

/-- The scan of a digit run ends at the terminator's opcode byte at the latest (R91). -/
theorem exists_instLen_of_digits (h : Holds s (pre ++ Config.term)) (hwf : s.params.wf) {o : Nat} {b : Byte}
    (hb : memRead s o = .ok b) (htag : opTag b = .digits) : ∃ n, progInstLen s o = .ok n ∧ o + n ≤ pre.length := by
  have hlen := h.len_eq_of_term
  have hlt := h.lt_term_of_digits_or_alpha hb (.inl htag)
  obtain ⟨d, hd⟩ := Nat.exists_eq_add_of_le (show o + 1 ≤ pre.length from hlt)
  obtain ⟨k, hscan, hk⟩ := exists_scanRun_le (fuel := s.len - o) (by omega)
    (fun j hj => h.exists_memRead (show o + 1 + j < s.len by omega)) (hd ▸ h.memRead_term) (inRun_terminator hwf)
  exact ⟨1 + k, by rw [progInstLen, instLen_of_digits hb htag, hscan, Except.map_ok], by omega⟩

/-- No lookahead read of the classes without a digit run passes the terminator (R90). -/
theorem exists_instLen_of_not_digits (h : Holds s (pre ++ Config.term)) {o : Nat} {b : Byte}
    (hb : memRead s o = .ok b) (htag : opTag b ≠ .digits) : ∃ n, progInstLen s o = .ok n := by
  have hlen := h.len_eq_of_term
  obtain hdigits | halpha | hlabel | ⟨n, hn⟩ := opTag_cases b
  · exact absurd hdigits htag
  · have hlt := h.lt_term_of_digits_or_alpha hb (.inr halpha)
    obtain ⟨b1, hb1⟩ := h.exists_memRead (show o + 1 < s.len by omega)
    exact ⟨_, by rw [progInstLen, instLen_of_alpha hb halpha, hb1, Except.map_ok]⟩
  · have hle := h.le_term_of_labelOrEnd hb hlabel
    obtain ⟨b2, hb2⟩ := h.exists_memRead (show o + 2 < s.len by omega)
    exact ⟨_, by rw [progInstLen, instLen_of_labelOrEnd hb hlabel, hb2, Except.map_ok]⟩
  · exact ⟨n, instLen_of_opcodeLength hb hn⟩

end Holds

/-- Settles O12: the terminator ends every digit run, and stands where another class's lookahead read would leave the
Program. -/
theorem lookaheadInBoundsWhenNormalised : Obligations.LookaheadInBoundsWhenNormalised := by
  intro s pre o hwf hholds hlt
  obtain ⟨b, hb⟩ := hholds.exists_memRead hlt
  by_cases htag : opTag b = .digits
  · obtain ⟨n, hn, hle⟩ := hholds.exists_instLen_of_digits hwf hb htag
    exact ⟨n, hn, fun _ _ _ _ => by rw [hholds.len_eq_of_term]; exact hle⟩
  · obtain ⟨n, hn⟩ := hholds.exists_instLen_of_not_digits hb htag
    refine ⟨n, hn, fun c hc hlo hhi => absurd (opTag_digits ⟨hlo, hhi⟩) ?_⟩
    rwa [Except.ok.inj (hc.symm.trans hb)]

end Sys2Proof.Machine
end

section
/-!
The `STEP` that resolves an instruction with more room in its row than the instruction is long: its bytes are counted, and
nothing is put out (spec/42_row_packer.md R100 to R104).
-/
namespace Sys2Proof.Machine

/-- The state after `n` bytes of a whole instruction, with nothing owed before it, have gone into a row that stays open
(R102, R104). -/
def packedInRow (n : Nat) (s : State) : State :=
  { s with
    nStart := if s.spaceLeft = 13 then 0 else s.nStart, startPc := if s.spaceLeft = 13 then s.pc else s.startPc,
    pc := s.pc + n, spaceLeft := s.spaceLeft - n }

theorem place_owing_of_room {n : Nat} {s : State} (hinst : s.instLeft = 0) (hroom : n < s.spaceLeft) :
    place (owing n s) = packedInRow n s := by
  have hfit : bytesFit (owing n s) = n := by rw [bytesFit_owing, Nat.min_eq_right hroom.le]
  unfold place packedInRow
  rw [hfit]
  unfold owing openRow
  split <;> simp [*]

/-- Step 4 leaves a row open that has space left (R105). -/
theorem placeAndClose_of_room {before : State} {n : Nat} {s : State} (hroom : n < s.spaceLeft) :
    placeAndClose before (owing n s) = .next (place (owing n s)) := by
  have hspace : (place (owing n s)).spaceLeft ≠ 0 := by
    rw [place_spaceLeft, owing_spaceLeft, bytesFit_owing]
    omega
  rw [placeAndClose, closeRow, if_neg hspace]

/-- An instruction of any class that fits below `L` and does not fill its row. -/
theorem exec_of_room {i : Instr} {n : Nat} {s : State} (hphase : s.phase = .pack) (hinst : s.instLeft = 0)
    (hfit : s.pc + n ≤ s.len) (hroom : n < s.spaceLeft) (hlength : i.length = n) : exec i s = .next (packedInRow n s) := by
  rw [exec_eq_packInstr, hlength, packInstr_eq_placeAndClose hphase hinst hfit, placeAndClose_of_room hroom,
    place_owing_of_room hinst hroom]

/-- Settles O14: all eight classes have length 1. -/
theorem oneByteInstructionFits : Obligations.OneByteInstructionFits := by
  intro x s hphase hinst hfit hroom
  have hexec {i : Instr} : i.length = 1 → exec i s = .next (packedInRow 1 s) := exec_of_room hphase hinst hfit hroom
  exact ⟨hexec rfl, hexec rfl, hexec rfl, hexec rfl, hexec rfl, hexec rfl, hexec rfl, hexec rfl⟩

/-- Settles O15: all four classes have length 2. -/
theorem twoByteInstructionFits : Obligations.TwoByteInstructionFits := by
  intro x y b1 s hphase hinst hfit hroom
  have hexec {i : Instr} : i.length = 2 → exec i s = .next (packedInRow 2 s) := exec_of_room hphase hinst hfit hroom
  exact ⟨hexec rfl, hexec rfl, hexec rfl, hexec rfl⟩

/-- Settles O16: all three classes have length 3. -/
theorem threeByteInstructionFits : Obligations.ThreeByteInstructionFits := by
  intro x b1 b2 s hphase hinst hfit hroom
  have hexec {i : Instr} : i.length = 3 → exec i s = .next (packedInRow 3 s) := exec_of_room hphase hinst hfit hroom
  exact ⟨hexec rfl, hexec rfl, hexec rfl⟩

/-- Settles O17: each class's length is the one its field or its run gives. -/
theorem variableLengthInstructionFits : Obligations.VariableLengthInstructionFits := by
  intro op b1 b2 x body n s hphase hinst hfit hroom
  have hexec {i : Instr} : i.length = n → exec i s = .next (packedInRow n s) := exec_of_room hphase hinst hfit hroom
  exact ⟨fun hn => hexec hn.symm, fun hn => hexec (hn ▸ alphaLength_eq b1), fun hn => hexec (hn ▸ glabelLength_eq b2),
    fun hn => hexec hn.symm⟩

end Sys2Proof.Machine
end

section
/-!
The `STEP`s of the packer from every state of phase `PACK`: bytes owed that fit in the row, bytes that fill it, an
instruction that runs past `L`, and the final flush (spec/42_row_packer.md R100 to R107).
-/
namespace Sys2Proof.Machine

/-- Settles O23: the fetch reads nothing that the host's side of the moment changes. -/
theorem stepRunsDecodedInstruction : Obligations.StepRunsDecodedInstruction := by
  intro s i hphase hrst hpc hinst hi
  rw [step_of_pack hphase hrst]
  simp [packStep, hpc, hinst, hi]

/-- Settles O19: every class's meaning is the `STEP` of its length, which makes the overrun check before any write. -/
theorem instructionOverrunRaises : Obligations.InstructionOverrunRaises := by
  intro i s hphase hinst hover
  rw [exec_eq_packInstr, packInstr, if_pos hphase, if_pos hinst, if_pos hover, raise]

/-- Steps 1 and 3 together: the row opened if it was empty, and `min(space_left, n)` of the `n` bytes placed in it
(R102, R104). -/
theorem place_owing (n : Nat) (s : State) :
    place (owing n s) = { s with
      nStart := if s.spaceLeft = 13 then min 13 s.instLeft else s.nStart
      startPc := if s.spaceLeft = 13 then s.pc else s.startPc
      pc := s.pc + min s.spaceLeft n
      spaceLeft := s.spaceLeft - min s.spaceLeft n
      instLeft := n - min s.spaceLeft n } := by
  unfold place
  rw [bytesFit_owing]
  unfold owing openRow
  split <;> rfl

/-- Settles O25: the `STEP` places the bytes owed, and step 4 leaves the row open. -/
theorem stepContinuesInstruction : Obligations.StepContinuesInstruction := by
  intro s _ hpc howed hroom
  rw [packStep_of_owed hpc howed.ne', placeAndClose_of_room hroom, place_owing, Nat.min_eq_right hroom.le, Nat.sub_self]

/-! ### A row filled -/

/-- The row of the Program `bs` that the next `n` bytes owed fill from `s`: it starts where step 1 says, and ends inside
the instruction when not all of the `n` bytes fit (R102, R105, R106). -/
def filledRow (bs : List Byte) (n : Nat) (s : State) : Row :=
  makeRow s ((bs.drop (owing n s).startPc).take 13) (owing n s).nStart (if s.spaceLeft < n then s.spaceLeft else 0)

/-- `n_end` of a row that the bytes fill: those placed, unless they are all of the instruction (R105, R106). -/
theorem nEndOf_owing_of_full {n : Nat} {s : State} (hfull : s.spaceLeft ≤ n) :
    nEndOf (bytesFit (owing n s)) (place (owing n s)) = if s.spaceLeft < n then s.spaceLeft else 0 := by
  rw [nEndOf, place_instLeft, bytesFit_owing, owing_instLeft, Nat.min_eq_left hfull]
  simp only [Nat.sub_pos_iff_lt]

/-- The state after bytes fill the row of `s` and its record is put out (R104, R105, 44_row_emitter.md R133). -/
def rowFilled (bs : List Byte) (n : Nat) (s : State) : State :=
  { s with
    nStart := (owing n s).nStart, startPc := (owing n s).startPc, pc := s.pc + s.spaceLeft, spaceLeft := 13,
    instLeft := n - s.spaceLeft, sequence := s.sequence + 1#4, checksum := (filledRow bs n s).checksum,
    out := s.out ++ rowBytes (filledRow bs n s) }

theorem nextRow_putRow_filledRow (bs : List Byte) {n : Nat} {s : State} (hfull : s.spaceLeft ≤ n) :
    nextRow (putRow (filledRow bs n s) (place (owing n s))) = rowFilled bs n s := by
  rw [place_owing, Nat.min_eq_left hfull, rowFilled, owing_nStart, owing_startPc]
  rfl

/-- A `STEP` whose bytes fill the row puts it out and begins the next (R105). -/
theorem Holds.placeAndClose_of_full {before s : State} {bs : List Byte} {n : Nat} (h : Holds s bs)
    (hfull : s.spaceLeft ≤ n) (hin : (owing n s).startPc + 13 ≤ s.len) :
    placeAndClose before (owing n s) = .next (rowFilled bs n s) := by
  have hplaced : Holds (place (owing n s)) bs := by simpa [Holds] using h
  have hspace : (place (owing n s)).spaceLeft = 0 := by simp [hfull]
  have hin' : (place (owing n s)).startPc + 13 ≤ (place (owing n s)).len := by simpa using hin
  have hrow : makeRow (place (owing n s)) ((bs.drop (owing n s).startPc).take 13) (owing n s).nStart
      (nEndOf (bytesFit (owing n s)) (place (owing n s))) = filledRow bs n s := by
    rw [nEndOf_owing_of_full hfull]
    simp [filledRow, makeRow]
  rw [placeAndClose, closeRow_of_emitRow hspace (hplaced.emitRow_eq hin' _ _), place_startPc, place_nStart, hrow,
    nextRow_putRow_filledRow bs hfull]

/-- The record of a row of 13 bytes. -/
theorem Holds.rowBytes_filledRow {bs : List Byte} {n : Nat} {s : State} (h : Holds s bs)
    (hin : (owing n s).startPc + 13 ≤ s.len) : rowBytes (filledRow bs n s) =
      [0x0F#8, (filledRow bs n s).checksum, typeByte s.sequence,
        overflowByte (owing n s).nStart (filledRow bs n s).nEnd] ++ (bs.drop (owing n s).startPc).take 13 := by
  have hpayload : (filledRow bs n s).payload.length = 13 := (readRange_ok_iff.1 (h.readRange_eq hin)).1
  rw [rowBytes, hpayload]
  rfl

/-- Settles O18: the bytes of the instruction fill the row, with nothing owed before it. -/
theorem instructionFillsRow : Obligations.InstructionFillsRow := by
  rintro i s bs start ns ne c hphase hinst hholds hfit - - hfull rfl hrow rfl rfl rfl
  rw [← owing_startPc i.length] at hrow
  have hin : (owing i.length s).startPc + 13 ≤ s.len := by omega
  rw [exec_eq_packInstr, packInstr_eq_placeAndClose hphase hinst hfit, hholds.placeAndClose_of_full hfull hin, rowFilled,
    hholds.rowBytes_filledRow hin]
  simp [filledRow, makeRow, hinst]

/-- Settles O26: the bytes owed fill the row that the `STEP` opens. -/
theorem stepPacksRowInsideInstruction : Obligations.StepPacksRowInsideInstruction := by
  rintro s bs ne c hphase hholds hspace howed hfit rfl rfl
  have hstart : (owing s.instLeft s).startPc = s.pc := by rw [owing_startPc, if_pos hspace]
  have hin : (owing s.instLeft s).startPc + 13 ≤ s.len := hstart ▸ hfit
  have hne : (if s.instLeft = 13 then 0 else 13) = if 13 < s.instLeft then 13 else 0 := by split_ifs <;> omega
  rw [packStep_of_owed (by omega) (by omega), hholds.placeAndClose_of_full (hspace ▸ howed) hin, rowFilled,
    hholds.rowBytes_filledRow hin, hne]
  simp [filledRow, makeRow, hspace, howed]

/-! ### The final flush -/

/-- Settles O27: at a row boundary nothing is put out, and the payload of an open row is the rest of the Program. -/
theorem finalFlush : Obligations.FinalFlush := by
  intro s bs c hphase hend
  rw [packStep_of_end hend.ge]
  refine ⟨fun hempty => ?_, fun hholds hopen hrow hc => ?_⟩
  · rw [flush, if_neg (by omega)]
  · have hpayload : (bs.drop s.startPc).length = 13 - s.spaceLeft := by rw [List.length_drop, hholds.1]; omega
    have hemit := hholds.emitRow_eq hrow.le s.nStart 0
    rw [List.take_of_length_le hpayload.le] at hemit
    rw [flush_of_emitRow hopen hemit, hc, ← hpayload]
    rfl

end Sys2Proof.Machine
end

section
/-!
The length of the output at `DONE`: four header bytes for each row, and every row but the last is full
(spec/44_row_emitter.md R136).
-/
namespace Sys2Proof.Machine

@[simp] theorem rowBytes_length (r : Row) : (rowBytes r).length = r.payload.length + 4 := rfl

theorem flatMap_rowBytes_length (rows : List Row) :
    (rows.flatMap rowBytes).length = (payloads rows).length + 4 * rows.length := by
  induction rows with
  | nil => rfl
  | cons r rows ih =>
    simp only [payloads, List.flatMap_cons, List.length_append, rowBytes_length, List.length_cons] at ih ⊢
    omega

theorem payloads_length_of_full {rows : List Row} (h : ∀ r ∈ rows, r.payload.length = 13) :
    (payloads rows).length = 13 * rows.length := by
  rw [payloads, List.length_flatMap, List.map_congr_left h, List.map_const', List.sum_replicate, smul_eq_mul, mul_comm]

/-- The number of rows of a whole Program (R110 b). -/
theorem rows_length_of_payloads {rows : List Row} (hrange : ∀ r ∈ rows, 1 ≤ r.payload.length ∧ r.payload.length ≤ 13)
    (hfull : ∀ r ∈ rows.dropLast, r.payload.length = 13) : rows.length = ((payloads rows).length + 12) / 13 := by
  obtain rfl | ⟨front, r, rfl⟩ := List.eq_nil_or_concat rows
  · rfl
  · rw [List.concat_eq_append] at hrange hfull ⊢
    rw [List.dropLast_concat] at hfull
    obtain ⟨hpos, hle⟩ := hrange r (by simp)
    rw [payloads_append, List.length_append, List.length_append, List.length_singleton, payloads_length_of_full hfull]
    omega

/-- Settles O52: the records' payloads are the Program, and its length gives the number of records. -/
theorem outputLengthAtDone : Obligations.OutputLengthAtDone := by
  intro s hinv hdone
  obtain ⟨-, -, -, bs, ⟨hlen, -⟩, hphase⟩ := hinv
  obtain ⟨-, -, rows, ⟨hout, -⟩, hpayloads, hrange, hfull, -⟩ := (phaseInv_done_iff hdone).1 hphase
  rw [hout, flatMap_rowBytes_length, rows_length_of_payloads hrange hfull, hpayloads, hlen]

end Sys2Proof.Machine
end

section
/-!
Whole runs of the packer with a silent host: they end, and from the start of a Program they put out its reference stream
(spec/42_row_packer.md R108, R110).
-/
namespace Sys2Proof.Machine

/-- Each `STEP` before the end raises `pc` or takes the fault, and the `STEP` at the end is the last (R108). -/
theorem exists_run_to_end (m : Nat) :
    ∀ {s : State}, Inv s → s.phase = .pack → s.pins = [] → s.len - s.pc < m →
      ∃ k t, k ≤ m ∧ Host.Core.run core k s = .next t ∧ (t.phase = .done ∨ t.phase = .fault) := by
  induction m with
  | zero => exact fun _ _ _ hm => absurd hm (Nat.not_lt_zero _)
  | succ m ih =>
    intro s hinv hphase hpins hm
    obtain ⟨t, ht⟩ := packStep_progress hinv hphase
    have hinv' : Inv t := inv_packStep hinv hphase ht
    have hframe : PackStepFrame s t := packStep_frame ht
    obtain ⟨-, -, -, bs, hholds, hphaseInv⟩ := hinv
    obtain ⟨hfault, -, hpacking⟩ := (phaseInv_pack_iff hphase).1 hphaseInv
    have hrunning : Running s.params.digitRunMax bs s := ⟨rfl, hholds, hphase, hfault, hpins⟩
    have hrun (k : Nat) : Host.Core.run core (k + 1) s = Host.Core.run core k t :=
      run_succ_of_step (hrunning.step_eq.trans ht) k
    obtain ⟨-, -, -, rfl⟩ | ⟨hpc, hpack, -, -, hlt, -⟩ | ⟨-, hdone, -⟩ := hpacking.packStep_next hholds hphase ht
    · exact ⟨1, _, by omega, hrun 0, .inr rfl⟩
    · have hlen : t.len = s.len := hframe.len
      obtain ⟨k, u, hk, hu, hend⟩ := ih hinv' hpack (hframe.pins.trans hpins) (by omega)
      exact ⟨k + 1, u, by omega, (hrun k).trans hu, hend⟩
    · exact ⟨1, t, by omega, hrun 0, .inl hdone⟩

/-- Settles O53: one `STEP` for each byte still to be packed, and the final flush. -/
theorem packingTerminates : Obligations.PackingTerminates := fun s hinv hphase hpins =>
  exists_run_to_end (s.len - s.pc + 1) hinv hphase hpins (Nat.lt_succ_self _)

/-- Settles O54: the run of the packer, in which every `STEP` keeps the rows put out those of the reference stream, answers
with that stream. -/
theorem packerRefinesReference : Obligations.PackerRefinesReference := by
  intro s bs hphase hfault hfresh hholds hpins
  have hrunning : Running s.params.digitRunMax bs s := ⟨rfl, hholds, hphase, hfault, hpins⟩
  obtain ⟨k, t, hk, ht, hanswer⟩ := hrunning.run_of_fresh hfresh
  refine ⟨fun o ho => ?_, fun hnone => ?_⟩
  · rw [ho] at hanswer
    exact ⟨k, t, hk, ht, hanswer⟩
  · rw [hnone] at hanswer
    exact ⟨k, t, hk, ht, hanswer⟩

end Sys2Proof.Machine
end

section
/-!
The checksum accumulator (spec/43_checksum.md): `CsAdd` and its fold as numbers, and where they are 0 (R121, R125).
-/
namespace Sys2Proof.Machine

/-- Settles O43: `CsAdd` adds 1 to a sum above 255, and the mask then takes 256 from it. -/
theorem csAddIsEndAroundCarry : Obligations.CsAddIsEndAroundCarry := by
  intro c b
  have hc := c.isLt
  have hb := b.isLt
  simp only [csAdd, BitVec.toNat_ofNat]
  split
  · rw [if_neg (by omega)]
    omega
  · rw [if_pos (by omega)]
    omega

/-- R125 c, one byte: taking 255 from the sum leaves its residue. -/
theorem csAdd_modEq (c b : Byte) : (csAdd c b).toNat ≡ c.toNat + b.toNat [MOD 255] := by
  rw [csAddIsEndAroundCarry]
  split
  · exact rfl
  · exact (Nat.mod_eq_sub_mod (by omega)).symm

/-- R125 d, one byte: where 255 is taken from the sum, at least 1 is left. -/
theorem csAdd_eq_zero_iff (c b : Byte) : csAdd c b = 0#8 ↔ c = 0#8 ∧ b = 0#8 := by
  simp only [← BitVec.toNat_inj, csAddIsEndAroundCarry c b, BitVec.toNat_ofNat]
  split <;> omega

/-- Settles O44, by induction on the bytes added. -/
theorem checksumIsSumModulo255 : Obligations.ChecksumIsSumModulo255 := by
  intro c bs
  induction bs generalizing c with
  | nil => rfl
  | cons b bs ih =>
    rw [csFold, List.map_cons, List.sum_cons, ← Nat.add_assoc]
    exact (ih (csAdd c b)).trans ((csAdd_modEq c b).add_right _)

theorem csFold_eq_zero_iff (c : Byte) (bs : List Byte) : csFold c bs = 0#8 ↔ c = 0#8 ∧ ∀ b ∈ bs, b = 0#8 := by
  induction bs generalizing c with
  | nil => simp [csFold]
  | cons b bs ih => rw [csFold, ih, csAdd_eq_zero_iff, List.forall_mem_cons, and_assoc]

/-- The type code stands in the high bits (R53). -/
theorem typeByte_ne_zero (sequence : BitVec 4) : typeByte sequence ≠ 0#8 := by
  intro hzero
  have hvalue := headerByteValues.2.1 sequence
  rw [hzero, BitVec.toNat_ofNat] at hvalue
  omega

/-- Settles O45: the type byte is among the bytes that a row's checksum folds. -/
theorem checksumNeverReturnsToZero : Obligations.ChecksumNeverReturnsToZero := by
  refine ⟨csFold_eq_zero_iff, fun s payload ns ne hzero => ?_⟩
  obtain ⟨-, hbytes⟩ := (csFold_eq_zero_iff _ _).1 hzero
  exact typeByte_ne_zero s.sequence (hbytes _ List.mem_cons_self)

end Sys2Proof.Machine
end


section
/-!
The row emitter (spec/44_row_emitter.md): the record of a range of the Program, and the checksum after it (R130 to R134).
-/
namespace Sys2Proof.Machine

/-- The record in R133's order, with the checksum of R132. -/
theorem rowBytes_makeRow (s : State) (payload : List Byte) (ns ne : Nat) :
    rowBytes (makeRow s payload ns ne) =
      [lengthByte payload.length, csFold s.checksum ([typeByte s.sequence, overflowByte ns ne] ++ payload),
        typeByte s.sequence, overflowByte ns ne] ++ payload := rfl

/-- A range inside the Program has as many bytes as it was asked for (R134). -/
theorem Holds.length_take_drop {s : State} {bs : List Byte} (h : Holds s bs) {start p : Nat}
    (hfit : start + p ≤ s.len) : ((bs.drop start).take p).length = p :=
  (readRange_ok_iff.1 (h.readRange_eq hfit)).1

/-- Settles O47: the row put out is the one made of that range, and its length byte counts the range's `p` bytes. -/
theorem emitRowPutsOutRecord : Obligations.EmitRowPutsOutRecord := by
  rintro s bs start p ns ne c hholds hfit rfl
  rw [hholds.emitRow_eq hfit, putRow, rowBytes_makeRow, hholds.length_take_drop hfit]
  rfl

end Sys2Proof.Machine
end

section
/-!
The operations the host asks for, and what a moment gives the host (spec/45_host_operations.md R140 to R147): `PUSH` case by
case, a token or a silent moment in each phase, the bytes the host takes, and the run of an input longer than `CAP`.
-/
namespace Sys2Proof.Machine

/-! ### `PUSH` (R142) -/

theorem push_of_room {b : Byte} {s : State} (hphase : s.phase = .load) (hroom : s.len < s.params.cap) :
    push b s = .next { s with prog := memSet s.prog s.len b, len := s.len + 1 } := by
  have hstored : s.len < s.params.bufBytes := by unfold Params.bufBytes; omega
  rw [push, if_pos hphase, if_pos hroom, memWrite, if_pos hstored]

theorem push_of_overflow {b : Byte} {s : State} (hphase : s.phase = .load) (hfull : s.params.cap ≤ s.len)
    (hfault : s.params.onOverflow = .fault) : push b s = .next (raise .capacityExceeded s) := by
  rw [push, if_pos hphase, if_neg hfull.not_gt, hfault]

theorem push_of_truncate {b : Byte} {s : State} (hphase : s.phase = .load) (hfull : s.params.cap ≤ s.len)
    (htruncate : s.params.onOverflow = .truncate) : push b s = .next s := by
  rw [push, if_pos hphase, if_neg hfull.not_gt, htruncate]

/-- Settles O30: the write at `L` is read back there and nowhere else, and the other clauses write nothing. -/
theorem pushLoadsOneByte : Obligations.PushLoadsOneByte := by
  intro b s
  refine ⟨fun hphase hroom => ?_, push_of_overflow, push_of_truncate, fun hphase => by rw [push, if_neg hphase]⟩
  exact ⟨_, push_of_room hphase hroom, memGet_memSet_same _ _ _, fun a ha => memGet_memSet_other _ _ ha⟩

/-! ### The host's side of a moment (R147) -/

/-- What a moment adds to `taken` is the host's side of it alone: no operation but `RESET` writes it. -/
theorem step_taken {s t : State} (hrst : (pinsNow s).rst = false) (h : step s = .next t) :
    t.taken = (passMoment s).taken := by
  obtain ⟨hrst', -⟩ | ⟨-, -, -, htoken⟩ | ⟨-, -, hpack⟩ | ⟨-, -, -, rfl⟩ := step_next h
  · rw [hrst] at hrst'
    cases hrst'
  · obtain ⟨-, ht⟩ | ⟨-, ht⟩ | ⟨-, -, ht⟩ := acceptToken_next htoken <;> exact (congrArg State.taken ht :)
  · exact (packStep_frame hpack).taken
  · rfl

/-- Without `rst` what is out stays out, in its place: `out` only grows at its end (R22). -/
theorem out_isPrefix_of_step {s t : State} (hrst : (pinsNow s).rst = false) (h : step s = .next t) : s.out <+: t.out := by
  obtain hsame | ⟨-, r, hrow⟩ := outputGrowsByWholeRecords s t hrst h
  · rw [hsame]
  · rw [hrow]
    exact ⟨_, rfl⟩

/-- Settles O36: the count is the host's side of the moment, and the byte offered keeps its place in `out`. -/
theorem hostTakesOutputInOrder : Obligations.HostTakesOutputInOrder := by
  intro s t hrst h
  refine ⟨by simp only [step_taken hrst h, passMoment_taken, Bool.and_eq_true], fun b hb => ?_⟩
  obtain ⟨more, hout⟩ := out_isPrefix_of_step hrst h
  have hoffered : s.taken < s.out.length := (List.getElem?_eq_some_iff.1 hb).1
  rw [← hout, List.getElem?_append_left hoffered]
  exact hb

/-! ### What each phase enables (R140, R144 to R147) -/

/-- Settles O20: every instruction is a `STEP`, which is enabled in `PACK` only. -/
theorem instructionNeedsPackPhase : Obligations.InstructionNeedsPackPhase := by
  intro i s hphase
  rw [exec_eq_packInstr, packInstr, if_neg hphase]

/-- Settles O22: `STEP` is the one operation that LBRE performs in `PACK`, and it does so at every moment. -/
theorem stepInPackIsOneSTEP : Obligations.StepInPackIsOneSTEP :=
  fun _ hphase hrst => step_of_pack hphase hrst

/-- Settles O32: the token is accepted, and `in_end` says which operation it is. -/
theorem tokenAcceptedInLoad : Obligations.TokenAcceptedInLoad :=
  fun _ hphase hrst hvalid => step_of_token hphase hrst hvalid

/-- Settles O34: both moments are the same `STEP`, and `in_valid` is no part of what the host's side reads. -/
theorem tokenIgnoredWhilePacking : Obligations.TokenIgnoredWhilePacking := by
  intro s p ps hphase hrst
  rw [step_of_pack (s := { s with pins := p :: ps }) hphase hrst,
    step_of_pack (s := { s with pins := { p with inValid := false } :: ps }) hphase hrst]
  rfl

/-- Settles O35: no operation but `RESET` is enabled, so that the moment passes for the host or there is none. -/
theorem doneAndFaultAreFrozen : Obligations.DoneAndFaultAreFrozen := by
  intro s hphase hrst
  have hnoOperation : step s = noOperation s := by
    obtain hdone | hfault := hphase
    · exact step_of_noOperation hrst (by simp [hdone]) (by simp [hdone])
    · exact step_of_noOperation hrst (by simp [hfault]) (by simp [hfault])
  rw [hnoOperation]
  obtain ⟨t, ht⟩ | ⟨hpins, hrefused⟩ := noOperation_progress s
  · obtain ⟨hpins, rfl⟩ := noOperation_next ht
    exact ⟨fun hnone => absurd hnone hpins, fun _ => ⟨_, ht⟩⟩
  · exact ⟨fun _ => hrefused, fun hsome => absurd hpins hsome⟩

/-! ### An input longer than `CAP` (R149 b, 60_exceptions.md R151) -/

/-- The moment of a `PUSH` token takes no byte of `out`: the host holds `out_ready` low. -/
theorem step_of_pushPins {s : State} {b : Byte} {rest : List PortIn} (hphase : s.phase = .load)
    (hpins : s.pins = pushPins b :: rest) : step s = push b { s with pins := rest } := by
  have hnow : pinsNow s = pushPins b := by rw [pinsNow, hpins]
  have hpass : passMoment s = { s with pins := rest } := by simp [passMoment, hnow, pushPins, hpins]
  rw [step_of_token hphase (by rw [hnow]; rfl) (by rw [hnow]; rfl), hnow, hpass]
  rfl

/-- A push below `CAP` loads its byte after those already held and changes no other element. -/
theorem Holds.step_pushPins_of_room {s : State} {bs : List Byte} {b : Byte} {rest : List PortIn} (h : Holds s bs)
    (hphase : s.phase = .load) (hpins : s.pins = pushPins b :: rest) (hroom : s.len < s.params.cap) :
    ∃ t, step s = .next t ∧ Holds t (bs ++ [b]) ∧ t = { s with prog := t.prog, len := s.len + 1, pins := rest } :=
  ⟨_, (step_of_pushPins hphase hpins).trans (push_of_room hphase hroom), h.push b, rfl⟩

theorem hostPins_append (xs ys : List Byte) : hostPins (xs ++ ys) = xs.map pushPins ++ hostPins ys := by
  rw [hostPins, hostPins, List.map_append, List.append_assoc]

/-- Pushes that fit below `CAP` load their bytes in order, whatever is to follow, and change no other element. -/
theorem Holds.run_pushes_of_room {rest : List PortIn} (input : List Byte) :
    ∀ {s : State} {bs : List Byte}, Holds s bs → s.phase = .load → s.pins = input.map pushPins ++ rest →
      s.len + input.length ≤ s.params.cap →
      ∃ t : State, (∀ k, Host.Core.run core (input.length + k) s = Host.Core.run core k t) ∧ Holds t (bs ++ input) ∧
        t = { s with prog := t.prog, len := s.len + input.length, pins := rest } := by
  induction input with
  | nil =>
    intro s bs hholds _ hpins _
    have hpins : s.pins = rest := hpins
    exact ⟨s, fun k => by rw [List.length_nil, Nat.zero_add], by rwa [List.append_nil], by rw [← hpins]; rfl⟩
  | cons b input ih =>
    intro s bs hholds hphase hpins hfit
    rw [List.length_cons] at hfit ⊢
    obtain ⟨t, ht, hheld, hframe⟩ := hholds.step_pushPins_of_room hphase hpins (by omega)
    have hparams : t.params = s.params := by rw [hframe]
    have hlen : t.len = s.len + 1 := by rw [hframe]
    obtain ⟨u, hu, hheld', hframe'⟩ :=
      ih hheld (by rw [hframe]; exact hphase) (by rw [hframe]; rfl) (by rw [hparams]; omega)
    refine ⟨u, fun k => by rw [Nat.add_right_comm, run_succ_of_step ht, hu], by rwa [List.append_assoc] at hheld', ?_⟩
    rw [hframe', hlen, Nat.add_right_comm, ← Nat.add_assoc, hframe]

/-- Settles O56: `CAP` pushes load the first `CAP` bytes and leave the other registers fresh; the next finds no room
and takes the fault. -/
theorem overlongInputRaisesCapacityExceeded : Obligations.OverlongInputRaisesCapacityExceeded := by
  intro s input hphase hlen hfresh hpins hlong hfault
  have hempty : Holds s [] := ⟨hlen.symm, fun a ha => by omega⟩
  have htaken : (input.take s.params.cap).length = s.params.cap := List.length_take_of_le hlong.le
  obtain ⟨b, later, hlater⟩ : ∃ b later, input.drop s.params.cap = b :: later :=
    List.exists_cons_of_length_pos (by rw [List.length_drop]; omega)
  have hinput : input = input.take s.params.cap ++ b :: later := by rw [← hlater, List.take_append_drop]
  have hsplit : s.pins = (input.take s.params.cap).map pushPins ++ pushPins b :: hostPins later :=
    hpins.trans ((congrArg hostPins hinput).trans (hostPins_append _ _))
  obtain ⟨u, hrun, hloaded, hframe⟩ := hempty.run_pushes_of_room _ hphase hsplit (by omega)
  rw [hlen, htaken, Nat.zero_add] at hframe
  rw [htaken] at hrun
  have hstep : step u = .next (raise .capacityExceeded { u with pins := hostPins later }) := by
    rw [step_of_pushPins (b := b) (hframe ▸ hphase) (by rw [hframe])]
    exact push_of_overflow (hframe ▸ hphase) (by rw [hframe]) (hframe ▸ hfault)
  obtain ⟨hpc, -, -, -, -, -, -, hout⟩ := hfresh
  refine ⟨_, (hrun 1).trans (run_succ_of_step hstep 0), rfl, rfl, by rw [hframe]; rfl, by rw [hframe]; exact hpc,
    by rw [hframe]; exact hout, fun a c hc ha => ?_⟩
  have hbyte := hloaded.2 a (by rwa [hframe])
  rw [List.nil_append, List.getElem?_take_of_lt ha, hc] at hbyte
  exact hbyte

end Sys2Proof.Machine
end

section
/-!
A `STEP` that takes the fault `MalformedTail` (spec/60_exceptions.md R152, R157): the fetch is rejected for either of the
rule's two causes, before anything is written.
-/
namespace Sys2Proof.Machine

/-- A length that is not resolved leaves nothing to split into an instruction (R90). -/
theorem fetch_of_progInstLen_error {s : State} {e : Reject} (h : progInstLen s s.pc = .error e) : fetch s = .error e := by
  rw [progInstLen] at h
  rw [fetch, decodeAt, h]

/-- The overrun check comes before the instruction's bytes are read (42_row_packer.md R103). -/
theorem fetch_of_overrun {s : State} {n : Nat} (h : progInstLen s s.pc = .ok n) (hover : s.len < s.pc + n) :
    fetch s = .error .malformedTail := by
  rw [progInstLen] at h
  simp only [fetch, decodeAt, h, if_pos hover]

/-- Settles O28: either cause rejects the fetch, and the fault is raised on the state before step 1, in which only the
host's side of the moment has passed. -/
theorem malformedTailUndoesStep : Obligations.MalformedTailUndoesStep := by
  intro s hphase hrst hpc hinst hcause
  have hfetch : fetch s = .error .malformedTail := by
    obtain herror | ⟨n, hn, hover⟩ := hcause
    · exact fetch_of_progInstLen_error herror
    · exact fetch_of_overrun hn hover
  have hpassed : packStep (passMoment s) = .next (raise .malformedTail (passMoment s)) :=
    packStep_of_malformedTail hpc hinst ((fetch_passMoment s).trans hfetch)
  rw [step_of_pack hphase hrst, hpassed]
  simp only [raise, passMoment, outValid, Bool.and_eq_true, decide_eq_true_eq]

end Sys2Proof.Machine
end

section
/-!
`RESET` (spec/70_reset_and_hazards.md R170, spec/45_host_operations.md R141): the values it leaves in the registers.
-/
namespace Sys2Proof.Machine

/-- Settles O29: `rst` is looked at before the phase and the other pins, so that the step is `RESET` after the host's side
of the moment, which takes one entry off the pins. -/
theorem resetPutsRegisters : Obligations.ResetPutsRegisters := by
  refine ⟨⟨rfl, rfl, rfl, rfl, rfl, rfl, rfl, rfl, rfl, rfl, rfl⟩, fun s hrst => ?_⟩
  exact ⟨0, s.pins.tail, step_of_rst hrst⟩

end Sys2Proof.Machine
end
